-- ==== Sys2Proof/Word.lean ====
section
/-! DEFINITION. The words of the machine: bytes, 9-bit fault details and register indices (00 R6, 10 R21). -/

namespace Sys2Proof

/-- A register or a memory cell: 8 bits, unsigned (00 R6, `WORD`). -/
abbrev Byte := BitVec 8

/-- A fault detail: a register index or an address, 9 bits (10 R36, 60 R205). -/
abbrev Detail := BitVec 9

/-- The index of a general register, 0 to 7 (10 R21, `NREGS`). -/
abbrev RegIndex := Fin 8

/-- An address formed exactly, as a fault detail (60 R205). -/
def addressDetail (a : Nat) : Detail := BitVec.ofNat 9 a

/-- A byte as a fault detail (60 R202 to R204). -/
def byteDetail (b : Byte) : Detail := b.setWidth 9

end Sys2Proof
end

