-- ==== Sys2Proof/Config.lean ====
section
/-! DEFINITION. The parameters of 00 R6, and the values the spec leaves free. -/

namespace Sys2Proof

/-- What the dispatch decoder can select: the thirteen mnemonics (30 R77, 40 R105). -/
inductive Mnemonic where
  | hlt | ldi | prn | mul | add | push | pop | call | ret | cmp | jmp | jeq | jne
  deriving DecidableEq, Repr

/-- `OPCODE_MAP`: the opcode byte of each mnemonic (00 R6). -/
abbrev OpcodeMap := Mnemonic → Byte

/-- The default of `OPCODE_MAP` (30 R77). UNVERIFIED, unsafe (log entry 1): the spec takes the byte values from
general knowledge, not from its source (92 D1). -/
def Config.opcodeMap : OpcodeMap
  | .hlt => 0b00000001
  | .ldi => 0b10000010
  | .prn => 0b01000111
  | .mul => 0b10100010
  | .add => 0b10100000
  | .push => 0b01000101
  | .pop => 0b01000110
  | .call => 0b01010000
  | .ret => 0b00010001
  | .cmp => 0b10100111
  | .jmp => 0b01010100
  | .jeq => 0b01010101
  | .jne => 0b01010110

/-- `SP_INIT`: the stack pointer at reset (00 R6). -/
def Config.spInit : Byte := 0xF4

/-- `STACK_EMPTY`: the empty-stack sentinel (00 R6, 43 R170). UNVERIFIED, unsafe (log entry 8): the source gives it
no value, the spec decides 0xF4 (92 D6). -/
def Config.stackEmpty : Byte := 0xF4

/-- The parameters of 00 R6 on which the core's behaviour depends and which the source leaves open: `OPCODE_MAP` and
`STACK_EMPTY` (93 U3, U16). `FUEL` is the host's, an argument of `runFuel` (93 U24); `EXIT_ERR` is `Config.exitErr`. -/
structure Params where
  opcodeMap : OpcodeMap
  stackEmpty : Byte

/-- The parameters at the spec's defaults (00 R6). -/
def Config.params : Params where
  opcodeMap := Config.opcodeMap
  stackEmpty := Config.stackEmpty

/-- The free value of operand latch A when the instruction of the n-th fetch does not use it (10 R40, 93 U8;
log entry 7). -/
opaque Config.freeOpA : Nat → Byte

/-- The free value of operand latch B when the instruction of the n-th fetch does not use it (10 R40, 93 U8;
log entry 7). -/
opaque Config.freeOpB : Nat → Byte

/-- The errors for which the host exits with a non-zero code (60 R221): a load error, a missing command-line
argument, or a core fault with its status code 3 to 7. -/
inductive HostError where
  | loadError
  | missingArgument
  | coreFault (code : BitVec 3)
  deriving DecidableEq, Repr

/-- `EXIT_ERR`: the host's exit code for an error, "any non-zero value, possibly per error kind" (00 R6, 60 R221;
log entry 9). -/
opaque Config.exitErr : HostError → PNat

end Sys2Proof
end

