-- ==== Sys2Proof/Machine/State.lean ====
section
/-! DEFINITION. The state of the core as plain data (10 R20), its reset value (10 R38), and the reason types of a
step. -/

namespace Sys2Proof.Machine

/-- Memory as the cells that differ from what an unlisted address reads as (10 R35, 20 R50). -/
abbrev Memory := List Host.Cell

/-- What an unlisted address reads as: the reset value of a cell (10 R38, 92 D5; log entry 5). -/
def Memory.unlisted : Byte := 0x00

/-- The canonical form: addresses strictly rising and in 0..255, and no cell equal to what an unlisted address reads
as. -/
def Memory.wf : Memory → Bool
  | [] => true
  | [c] => decide (c.1 < 256) && decide (c.2 ≠ Memory.unlisted)
  | c :: d :: m => decide (c.1 < d.1) && decide (c.2 ≠ Memory.unlisted) && Memory.wf (d :: m)

/-- The flags register: Equal, Greater, Less (10 R30). -/
structure Flags where
  e : Bool
  g : Bool
  l : Bool
  deriving DecidableEq, Repr

/-- The five fault kinds (60 R200). -/
inductive FaultKind where
  | decodeError
  | stackOverflow
  | stackUnderflow
  | badRegister
  | addressOutOfRange
  deriving DecidableEq, Repr

/-- A fault record (60 R206); `detail` is absent for DecodeError. -/
structure FaultRecord where
  kind : FaultKind
  pc : Byte
  opcode : Byte
  detail : Option Detail
  deriving DecidableEq, Repr

/-- The run status (10 R36). -/
inductive Status where
  | load
  | running
  | halted
  | fault (r : FaultRecord)
  deriving DecidableEq, Repr

/-- The state of the core (10 R20). -/
structure State where
  /-- Memory (10 R35). -/
  mem : Memory
  /-- The general registers R0 to R7 (10 R21); R7 is the stack pointer (10 R23). -/
  x : Vector Byte 8
  /-- The program counter (10 R27): while an instruction executes, the address of its opcode byte (10 R28). -/
  pc : Byte
  /-- The flags register (10 R30). -/
  fl : Flags
  /-- The instruction register (10 R34). -/
  ir : Byte
  /-- Operand latch A (10 R40). -/
  opA : Byte
  /-- Operand latch B (10 R40). -/
  opB : Byte
  /-- The run status with the fault record (10 R36). -/
  status : Status
  /-- The output history, oldest byte first (10 R37). -/
  out : List Byte
  /-- The model's own field, not the spec's: how many fetches there have been, the index of the next free value of an
  unused operand latch (DESIGN CHOICE, safe; log entry 7). -/
  draws : Nat
  deriving DecidableEq, Repr

/-- Reasons for which the host's `fault` outcome would be answered: there are none. Every fault of the spec is described
by it completely (40 R113: `raise` sets the status and the fault record and ends the step), so it is a NEXT state whose
status is `Status.fault`; log entry 2. Safe: nothing stops where the spec goes on. -/
inductive Fault where
  deriving DecidableEq, Repr

/-- Reasons to give an instruction no meaning. -/
inductive Refusal where
  /-- Raised only by an arm of `exec` for an instruction without a meaning; every instruction has one, so nothing
  raises it. Safe. -/
  | notModelled (mnemonic : String)
  deriving DecidableEq, Repr

/-- The state right after reset (10 R38, 70 R230). The values the spec decides itself: log entries 5 and 6. -/
def State.reset : State where
  mem := []
  x := #v[0x00, 0x00, 0x00, 0x00, 0x00, 0x00, 0x00, Config.spInit]
  pc := 0x00
  fl := { e := false, g := false, l := false }
  ir := 0x00
  opA := 0x00
  opB := 0x00
  status := .load
  out := []
  draws := 0

end Sys2Proof.Machine
end

