-- ==== Sys2Proof/Machine/Flags.lean ====
section
/-! DEFINITION. The alu (40 R115, 42 R150) and the flags register (10 R30, 40 R116). Values are computed exactly on
naturals and narrowed at the end. -/

namespace Sys2Proof.Machine

/-- `(a + b) mod 256` (40 R115, 42 R152). -/
def aluAdd (a b : Byte) : Byte := BitVec.ofNat 8 (a.toNat + b.toNat)

/-- `(a * b) mod 256` (40 R115, 42 R151). -/
def aluMul (a b : Byte) : Byte := BitVec.ofNat 8 (a.toNat * b.toNat)

/-- `e`, `g` and `l` of an unsigned comparison (40 R115, 42 R153). -/
def aluCompare (a b : Byte) : Flags where
  e := decide (a.toNat = b.toNat)
  g := decide (b.toNat < a.toNat)
  l := decide (a.toNat < b.toNat)

/-- The flags register is written whole, by CMP alone (40 R116). -/
def State.setFlags (s : State) (f : Flags) : State := { s with fl := f }

/-- The three flag bits as the port `trace_flags` shows them: L, G, E from bit 2 down (10 R31). -/
def Flags.toBits (f : Flags) : BitVec 3 :=
  BitVec.ofBool f.l ++ BitVec.ofBool f.g ++ BitVec.ofBool f.e

/-- The flags as one byte, `0b00000LGE` (10 R31). UNVERIFIED, safe: no instruction reads this byte (log entry 11). -/
def Flags.toByte (f : Flags) : Byte := f.toBits.setWidth 8

/-- "at most one bit is set at any time" (10 R30). -/
def Flags.exclusive (f : Flags) : Bool := !(f.e && f.g) && !(f.e && f.l) && !(f.g && f.l)

end Sys2Proof.Machine
end

