-- ==== Sys2Proof/Machine/Ops.lean ====
section
/-! DEFINITION. The named operations over memory, registers, the stack pointer, the output, the run status and the
program counter. Raising a fault is ONE operation, `State.raise`; the spec has no return from a fault, only `rst`
(60 R207, R212), which stands beside it. -/

namespace Sys2Proof.Machine

/-! Memory (20 R53, R54) -/

/-- The value of the first cell listed for an address. -/
def Memory.find? : Memory → Nat → Option Byte
  | [], _ => none
  | c :: m, a => if c.1 = a then some c.2 else Memory.find? m a

/-- `MemRead(a, 1)` (20 R53). -/
def Memory.read (m : Memory) (a : Nat) : Byte := (Memory.find? m a).getD Memory.unlisted

/-- The memory with no cell listed for an address. -/
def Memory.erase (m : Memory) (a : Nat) : Memory := m.filter fun c => decide (c.1 ≠ a)

/-- The memory with one cell put in the place its address gives it. -/
def Memory.insert : Memory → Nat → Byte → Memory
  | [], a, v => [(a, v)]
  | c :: m, a, v => if a < c.1 then (a, v) :: c :: m else c :: Memory.insert m a v

/-- `MemWrite(a, 1, v)` (20 R53), keeping the canonical form. -/
def Memory.write (m : Memory) (a : Nat) (v : Byte) : Memory :=
  if v = Memory.unlisted then Memory.erase m a else Memory.insert (Memory.erase m a) a v

/-- The memory with bytes written to consecutive addresses from `a` up, as far as addresses reach (20 R65). -/
def Memory.writeBytes (m : Memory) (a : Nat) : List Byte → Memory
  | [] => m
  | b :: bs => if a < 256 then Memory.writeBytes (Memory.write m a b) (a + 1) bs else m

/-! Registers (40 R114) and the view of the stack pointer (40 R117) -/

/-- `x[r]`. -/
def State.reg (s : State) (r : RegIndex) : Byte := s.x[r]

/-- `x[r] <- v`. -/
def State.setReg (s : State) (r : RegIndex) (v : Byte) : State := { s with x := s.x.set r v }

/-- `SP_REG`: R7 is the stack pointer (00 R6, 10 R23). -/
abbrev spReg : RegIndex := 7

/-- `sp = x[7]` (40 R117). -/
def State.sp (s : State) : Byte := s.reg spReg

/-- `SP <- v`. -/
def State.setSp (s : State) (v : Byte) : State := s.setReg spReg v

/-- `sp_at_bottom`: PUSH and CALL overflow (40 R117, 43 R173). -/
def State.spAtBottom (s : State) : Bool := s.sp == 0x00

/-- `sp_empty`: POP and RET underflow; `empty` is the parameter `STACK_EMPTY` (40 R117, 43 R173). -/
def State.spEmpty (s : State) (empty : Byte) : Bool := decide (empty.toNat ≤ s.sp.toNat)

/-- `sp_dec`, used only when `sp_at_bottom` is 0 (40 R117). -/
def State.spDec (s : State) : Byte := s.sp - 1

/-- `sp_inc = (x[7] + 1) mod 256` (40 R117). -/
def State.spInc (s : State) : Byte := s.sp + 1

/-- `MemRead(SP, 1)`. -/
def State.readTop (s : State) : Byte := Memory.read s.mem s.sp.toNat

/-- `MemWrite(SP, 1, v)`. -/
def State.writeTop (s : State) (v : Byte) : State := { s with mem := Memory.write s.mem s.sp.toNat v }

/-! Output (00 R6, 10 R37) -/

/-- `emit(v)`: the host appends the byte to the output history. -/
def State.emit (s : State) (v : Byte) : State := { s with out := s.out ++ [v] }

/-! Faults and reset -/

/-- `raise K(pc, ir, detail)`: the status becomes the fault with its record, and nothing else changes (40 R113,
60 R206 to R208). -/
def State.raise (s : State) (k : FaultKind) (d : Option Detail) : State :=
  { s with status := .fault { kind := k, pc := s.pc, opcode := s.ir, detail := d } }

/-- `rst`: every piece of the spec's state takes its reset value (40 R101, 70 R230). It is the only way out of HALTED or
a fault (40 R120). The model's own counter goes on, so that free values stay fresh (log entry 7). -/
def State.rst (s : State) : State := { State.reset with draws := s.draws }

/-- The load port: `mem[load_addr] <- load_data`, effective only while the status is LOAD (40 R101, R120). -/
def State.loadByte (s : State) (a v : Byte) : State :=
  if s.status = .load then { s with mem := Memory.write s.mem a.toNat v } else s

/-- The host's load of an image from address 0 up through the load port (20 R65, 70 R231). `none` is the host's
LoadError for an image of more than 256 bytes, after which it does not start the core (60 R220). -/
def State.loadImage (s : State) (image : List Byte) : Option State :=
  if 256 < image.length then none
  else some (if s.status = .load then { s with mem := Memory.writeBytes s.mem 0 image } else s)

/-- `start`: LOAD becomes RUNNING, ignored in any other status (40 R101, R120, 70 R232). -/
def State.start (s : State) : State := if s.status = .load then { s with status := .running } else s

/-! What a handler answers, and the advance (40 R109 to R111) -/

/-- The three outcomes of a handler (40 R109). -/
inductive Control where
  | implicitAdvance
  | jump (t : Byte)
  | halt
  deriving DecidableEq, Repr

/-- A handler raises an execution error, its checks standing before its first write (40 R118), or returns the state it
leaves and an outcome (40 R109). -/
inductive Effect where
  | raises (k : FaultKind) (d : Detail)
  | done (s : State) (c : Control)
  deriving DecidableEq, Repr

/-- The implicit advance by `1 + n`: past 255 it faults and `pc` and the instruction's effects stay
(40 R110, R111). -/
def State.advance (s : State) (n : Nat) : State :=
  if 255 < s.pc.toNat + 1 + n then
    s.raise .addressOutOfRange (some (addressDetail (s.pc.toNat + 1 + n)))
  else { s with pc := BitVec.ofNat 8 (s.pc.toNat + 1 + n) }

/-- The end of a step from what the handler answers, for an instruction of `n` operand bytes that began in `s`
(40 R110). -/
def State.finish (s : State) (n : Nat) : Effect → State
  | .raises k d => s.raise k (some d)
  | .done t .implicitAdvance => t.advance n
  | .done t (.jump a) => { t with pc := a }
  | .done t .halt => { t with status := .halted }

end Sys2Proof.Machine
end

