-- ==== Sys2Proof/Machine/Operands.lean ====
section
/-! DEFINITION. The operand forms: a register operand with its check (30 R74, 40 R108), and an immediate (30 R75). -/

namespace Sys2Proof.Machine

/-- The register an operand byte names: 0 to 7 select R0 to R7, and no byte is masked (30 R74). -/
def regOperand (a : Byte) : Option RegIndex := if h : a.toNat < 8 then some ⟨a.toNat, h⟩ else none

/-- The register-operand check before a handler runs: BadRegister with the operand byte as detail, and nothing changes
(40 R108, 60 R204). -/
def State.withReg (s : State) (a : Byte) (handler : RegIndex → State) : State :=
  match regOperand a with
  | some r => handler r
  | none => s.raise .badRegister (some (byteDetail a))

/-- The value of an immediate operand: the whole byte, with no extension (30 R75). -/
def immOperand (b : Byte) : Byte := b

end Sys2Proof.Machine
end

