-- ==== Sys2Proof/Syntax.lean ====
section
/-! DEFINITION. The thirteen instructions (00 R2, 30 R77), with their operand bytes as the fetch unit latches them. -/

namespace Sys2Proof

/-- An instruction with its operand bytes. A register operand is the WHOLE operand byte, unmasked (30 R74):
that it lies in 0..7 is checked when the instruction executes (40 R108), not by the decoder. -/
inductive Instr where
  | hlt                    -- 41 R140
  | ldi (a imm : Byte)     -- 41 R141
  | prn (a : Byte)         -- 41 R142
  | mul (a b : Byte)       -- 42 R151
  | add (a b : Byte)       -- 42 R152
  | push (a : Byte)        -- 43 R171
  | pop (a : Byte)         -- 43 R172
  | call (a : Byte)        -- 44 R181
  | ret                    -- 44 R182
  | cmp (a b : Byte)       -- 42 R153
  | jmp (a : Byte)         -- 44 R183
  | jeq (a : Byte)         -- 44 R184
  | jne (a : Byte)         -- 44 R185
  deriving DecidableEq, Repr

end Sys2Proof
end

