-- ==== Sys2Proof/Machine/Alu.lean ====
section
/-! DEFINITION. MUL, ADD and CMP (42 R151 to R153). -/

namespace Sys2Proof.Machine

/-- MUL: `x[a] <- (x[a] * x[b]) mod 256`; the flags are unchanged (42 R151). -/
def execMul (a b : Byte) (s : State) : Host.Outcome State Fault Refusal :=
  .next (s.withReg a fun ra => s.withReg b fun rb =>
    s.finish 2 (.done (s.setReg ra (aluMul (s.reg ra) (s.reg rb))) .implicitAdvance))

/-- ADD: `x[a] <- (x[a] + x[b]) mod 256`; the flags are unchanged (42 R152). -/
def execAdd (a b : Byte) (s : State) : Host.Outcome State Fault Refusal :=
  .next (s.withReg a fun ra => s.withReg b fun rb =>
    s.finish 2 (.done (s.setReg ra (aluAdd (s.reg ra) (s.reg rb))) .implicitAdvance))

/-- CMP: the flags become those of an unsigned comparison of `x[a]` with `x[b]` (42 R153). -/
def execCmp (a b : Byte) (s : State) : Host.Outcome State Fault Refusal :=
  .next (s.withReg a fun ra => s.withReg b fun rb =>
    s.finish 2 (.done (s.setFlags (aluCompare (s.reg ra) (s.reg rb))) .implicitAdvance))

end Sys2Proof.Machine
end

