-- ==== Sys2Proof/Machine/ControlTransfer.lean ====
section
/-! DEFINITION. CALL, RET, JMP, JEQ and JNE (44 R180 to R185). -/

namespace Sys2Proof.Machine

/-- `ret <- pc + 2`, exact: the address of the instruction after CALL's operand byte (10 R28, 44 R181). -/
def State.returnAddress (s : State) : Nat := s.pc.toNat + 2

/-- The handler of CALL: the return address must fit a byte, then the push as in PUSH, then the jump to `x[a]`, read
after the push (44 R181). -/
def handleCall (r : RegIndex) (s : State) : Effect :=
  if 255 < s.returnAddress then .raises .addressOutOfRange (addressDetail s.returnAddress)
  else if s.spAtBottom then .raises .stackOverflow (byteDetail s.sp)
  else
    let t := (s.setSp s.spDec).writeTop (BitVec.ofNat 8 s.returnAddress)
    .done t (.jump (t.reg r))

/-- The handler of RET: as POP, but to the pc (44 R182). `empty` is `STACK_EMPTY`. -/
def handleRet (empty : Byte) (s : State) : Effect :=
  if s.spEmpty empty then .raises .stackUnderflow (byteDetail s.sp)
  else .done (s.setSp s.spInc) (.jump s.readTop)

/-- The handler of JEQ and JNE: a jump to `x[a]` if the condition holds, else the advance (44 R184, R185). -/
def handleBranch (taken : Bool) (r : RegIndex) (s : State) : Effect :=
  .done s (if taken then .jump (s.reg r) else .implicitAdvance)

/-- CALL (44 R181). -/
def execCall (a : Byte) (s : State) : Host.Outcome State Fault Refusal :=
  .next (s.withReg a fun r => s.finish 1 (handleCall r s))

/-- RET for any `STACK_EMPTY` (44 R182, 93 U16). -/
def execRetWith (empty : Byte) (s : State) : Host.Outcome State Fault Refusal :=
  .next (s.finish 0 (handleRet empty s))

/-- RET (44 R182). -/
def execRet (s : State) : Host.Outcome State Fault Refusal := execRetWith Config.stackEmpty s

/-- JMP: `jump(x[a])` (44 R183). -/
def execJmp (a : Byte) (s : State) : Host.Outcome State Fault Refusal :=
  .next (s.withReg a fun r => s.finish 1 (.done s (.jump (s.reg r))))

/-- JEQ: jumps if E = 1 (44 R184). -/
def execJeq (a : Byte) (s : State) : Host.Outcome State Fault Refusal :=
  .next (s.withReg a fun r => s.finish 1 (handleBranch s.fl.e r s))

/-- JNE: jumps if E = 0 (44 R185). -/
def execJne (a : Byte) (s : State) : Host.Outcome State Fault Refusal :=
  .next (s.withReg a fun r => s.finish 1 (handleBranch (!s.fl.e) r s))

end Sys2Proof.Machine
end

