-- ==== Sys2Proof/Machine/HaltLoadOutput.lean ====
section
/-! DEFINITION. HLT, LDI and PRN (41 R140 to R142). -/

namespace Sys2Proof.Machine

/-- HLT: `return halt`; the pc stays (41 R140). -/
def execHlt (s : State) : Host.Outcome State Fault Refusal :=
  .next (s.finish 0 (.done s .halt))

/-- LDI: `x[a] <- b`, then the advance (41 R141). -/
def execLdi (a imm : Byte) (s : State) : Host.Outcome State Fault Refusal :=
  .next (s.withReg a fun r => s.finish 2 (.done (s.setReg r (immOperand imm)) .implicitAdvance))

/-- PRN: `emit(x[a])`, then the advance (41 R142). -/
def execPrn (a : Byte) (s : State) : Host.Outcome State Fault Refusal :=
  .next (s.withReg a fun r => s.finish 1 (.done (s.emit (s.reg r)) .implicitAdvance))

end Sys2Proof.Machine
end

