-- ==== Sys2Proof/Machine/Stack.lean ====
section
/-! DEFINITION. PUSH and POP (43 R170 to R173). A register operand that names R7 sees the stack pointer as the earlier
micro-operations left it (40 R118, 70 R237). -/

namespace Sys2Proof.Machine

/-- The handler of PUSH: the check, `SP <- SP - 1`, then the write of `x[a]`, read after the decrement (43 R171). -/
def handlePush (r : RegIndex) (s : State) : Effect :=
  if s.spAtBottom then .raises .stackOverflow (byteDetail s.sp)
  else
    let t := s.setSp s.spDec
    .done (t.writeTop (t.reg r)) .implicitAdvance

/-- The handler of POP: the check, `x[a] <- MemRead(SP, 1)`, then `SP <- (SP + 1) mod 256`, SP read after that write
(43 R172). `empty` is `STACK_EMPTY`. -/
def handlePop (empty : Byte) (r : RegIndex) (s : State) : Effect :=
  if s.spEmpty empty then .raises .stackUnderflow (byteDetail s.sp)
  else
    let t := s.setReg r s.readTop
    .done (t.setSp t.spInc) .implicitAdvance

/-- PUSH (43 R171). -/
def execPush (a : Byte) (s : State) : Host.Outcome State Fault Refusal :=
  .next (s.withReg a fun r => s.finish 1 (handlePush r s))

/-- POP for any `STACK_EMPTY` (43 R172, 93 U16). -/
def execPopWith (empty a : Byte) (s : State) : Host.Outcome State Fault Refusal :=
  .next (s.withReg a fun r => s.finish 1 (handlePop empty r s))

/-- POP (43 R172). -/
def execPop (a : Byte) (s : State) : Host.Outcome State Fault Refusal := execPopWith Config.stackEmpty a s

end Sys2Proof.Machine
end

