-- ==== Sys2Proof/WellFormed.lean ====
section
/-! DEFINITION. Well-formed instructions: every register operand names a register (30 R74, R79). -/

namespace Sys2Proof

/-- The operand bytes an instruction uses as register indices, in the order of the check of 40 R108
(`A_IS_REG`, `B_IS_REG` of 40 R105). -/
def Instr.regOperands : Instr → List Byte
  | .hlt => []
  | .ldi a _ => [a]
  | .prn a => [a]
  | .mul a b => [a, b]
  | .add a b => [a, b]
  | .push a => [a]
  | .pop a => [a]
  | .call a => [a]
  | .ret => []
  | .cmp a b => [a, b]
  | .jmp a => [a]
  | .jeq a => [a]
  | .jne a => [a]

/-- "`reg` operands must be 0..7, and `imm` operands may be any byte" (30 R79). -/
def Instr.wf (i : Instr) : Bool := i.regOperands.all fun r => decide (r.toNat < 8)

end Sys2Proof
end

