-- ==== Sys2Proof/Decode.lean ====
section
/-! DEFINITION. The decoder (bytes to an instruction or a refusal by name) and the encoder (30 R70 to R82,
40 R104, R105). -/

namespace Sys2Proof

/-- The four formats (30 R76). -/
inductive Format where
  | f0 | f1R | f2RR | f2RI
  deriving DecidableEq, Repr

/-- Why bytes are no instruction. -/
inductive DecodeRefusal where
  /-- There is no opcode byte. -/
  | noBytes
  /-- No handler is registered for the opcode byte (30 R78, 60 R201). -/
  | noHandler (op : Byte)
  /-- The k-th operand byte is missing (40 R107). -/
  | operandMissing (k : Nat)
  deriving DecidableEq, Repr

/-- What the decoder answers: an instruction and the bytes after it, or a refusal. -/
inductive Decoded where
  | ok (i : Instr) (rest : List Byte)
  | refused (why : DecodeRefusal)
  deriving DecidableEq, Repr

/-- The rows of the dispatch table, in the source's order (30 R77). -/
def Mnemonic.all : List Mnemonic :=
  [.hlt, .ldi, .prn, .mul, .add, .push, .pop, .call, .ret, .cmp, .jmp, .jeq, .jne]

/-- The format of each row (30 R77). -/
def Mnemonic.format : Mnemonic → Format
  | .hlt => .f0
  | .ldi => .f2RI
  | .prn => .f1R
  | .mul => .f2RR
  | .add => .f2RR
  | .push => .f1R
  | .pop => .f1R
  | .call => .f1R
  | .ret => .f0
  | .cmp => .f2RR
  | .jmp => .f1R
  | .jeq => .f1R
  | .jne => .f1R

/-- How many operand bytes a format has (30 R76). -/
def Format.operandCount : Format → Nat
  | .f0 => 0
  | .f1R => 1
  | .f2RR => 2
  | .f2RI => 2

/-- `operand_count(op) = op[7:6]` (30 R71, 40 R104). -/
def operandCount (op : Byte) : Nat := (op >>> 6).toNat

/-- An opcode map a model may take in place of the default (92 D1, D27): one byte per mnemonic, no byte twice, and
bits 7:6 of each byte are its row's operand count. -/
def OpcodeMap.Valid (m : OpcodeMap) : Prop :=
  (∀ h k : Mnemonic, m h = m k → h = k) ∧ ∀ h : Mnemonic, operandCount (m h) = h.format.operandCount

/-- The dispatch decoder for an opcode map: all eight bits of the opcode select the handler, and a byte with bits
7:6 = 0b11 selects none (30 R72, R77, 40 R105). -/
def dispatchWith (m : OpcodeMap) (op : Byte) : Option Mnemonic :=
  if operandCount op = 3 then none else Mnemonic.all.find? fun h => m h == op

/-- The dispatch decoder (40 R105). -/
def dispatch (op : Byte) : Option Mnemonic := dispatchWith Config.opcodeMap op

/-- The instruction of a row with its operand bytes; a byte the format does not have is not looked at. -/
def Mnemonic.instr (h : Mnemonic) (a b : Byte) : Instr :=
  match h with
  | .hlt => .hlt
  | .ldi => .ldi a b
  | .prn => .prn a
  | .mul => .mul a b
  | .add => .add a b
  | .push => .push a
  | .pop => .pop a
  | .call => .call a
  | .ret => .ret
  | .cmp => .cmp a b
  | .jmp => .jmp a
  | .jeq => .jeq a
  | .jne => .jne a

/-- The row of an instruction. -/
def Instr.mnemonic : Instr → Mnemonic
  | .hlt => .hlt
  | .ldi _ _ => .ldi
  | .prn _ => .prn
  | .mul _ _ => .mul
  | .add _ _ => .add
  | .push _ => .push
  | .pop _ => .pop
  | .call _ => .call
  | .ret => .ret
  | .cmp _ _ => .cmp
  | .jmp _ => .jmp
  | .jeq _ => .jeq
  | .jne _ => .jne

/-- The operand bytes of an instruction, in the order they follow the opcode (30 R76, 20 R54). -/
def Instr.operandBytes : Instr → List Byte
  | .hlt => []
  | .ldi a b => [a, b]
  | .prn a => [a]
  | .mul a b => [a, b]
  | .add a b => [a, b]
  | .push a => [a]
  | .pop a => [a]
  | .call a => [a]
  | .ret => []
  | .cmp a b => [a, b]
  | .jmp a => [a]
  | .jeq a => [a]
  | .jne a => [a]

/-- Decode an opcode byte with the bytes after it, of which only the operand count's worth is looked at (30 R80). -/
def decodeOpcodeWith (m : OpcodeMap) (op : Byte) (rest : List Byte) : Decoded :=
  match dispatchWith m op with
  | none => .refused (.noHandler op)
  | some h =>
    match operandCount op, rest with
    | 0, rest => .ok (h.instr 0 0) rest
    | 1, a :: rest => .ok (h.instr a 0) rest
    | 1, [] => .refused (.operandMissing 1)
    | _, a :: b :: rest => .ok (h.instr a b) rest
    | _, [_] => .refused (.operandMissing 2)
    | _, [] => .refused (.operandMissing 1)

/-- The decoder for an opcode map, total on any bytes. -/
def decodeWith (m : OpcodeMap) : List Byte → Decoded
  | [] => .refused .noBytes
  | op :: rest => decodeOpcodeWith m op rest

/-- The decoder (30 R77). -/
def decode (bytes : List Byte) : Decoded := decodeWith Config.opcodeMap bytes

/-- The encoder for an opcode map (30 R76). -/
def encodeWith (m : OpcodeMap) (i : Instr) : List Byte := m i.mnemonic :: i.operandBytes

/-- The encoder (30 R76, R77). -/
def encode (i : Instr) : List Byte := encodeWith Config.opcodeMap i

/-- The three bytes, lowest address first, of an instruction whose bits are w, the first byte being the low one; every
bit above nbits is 0 (the numbering of spec/opcode_table.json). -/
def tableBytes (nbits w : Nat) : List Byte :=
  let v := w % 2 ^ nbits
  [BitVec.ofNat 8 v, BitVec.ofNat 8 (v / 256), BitVec.ofNat 8 (v / 65536)]

/-- The instruction the decoder reads from an instruction whose bits are w, numbered as the opcode table numbers
them. -/
def decodeTableWord (nbits w : Nat) : Option Instr :=
  match decode (tableBytes nbits w) with
  | .ok i _ => some i
  | .refused _ => none

end Sys2Proof
end

