-- ==== Sys2Proof/Machine/Fetch.lean ====
section
/-! DEFINITION. The fetch unit and the decode stage of a step (40 R103 to R107). -/

namespace Sys2Proof.Machine

/-- What the fetch and decode stages answer: the instruction to run in the state with its bytes latched, or the state
in which a decode or operand-fetch fault has been raised. -/
inductive Fetched where
  | run (i : Instr) (s : State)
  | stop (s : State)
  deriving DecidableEq, Repr

/-- The opcode byte at the pc (40 R103). -/
def State.opcodeAt (s : State) : Byte := Memory.read s.mem s.pc.toNat

/-- The k-th byte after the opcode, if its address exists (40 R107). -/
def State.byteAfter (s : State) (k : Nat) : Option Byte :=
  if s.pc.toNat + k ≤ 255 then some (Memory.read s.mem (s.pc.toNat + k)) else none

/-- The operand bytes the opcode at the pc asks for, as far as their addresses exist (30 R80, 40 R107). -/
def State.operandsAt (s : State) : List Byte :=
  ((List.range (operandCount s.opcodeAt)).map fun k => s.byteAfter (k + 1)).reduceOption

/-- The latches after a fetch: `ir` and the operand bytes read. A latch with no byte read keeps no defined value
(10 R40, 93 U8): it takes a free value (DESIGN CHOICE of the form, safe; log entry 7). -/
def State.latch (s : State) (operands : List Byte) : State :=
  { s with
    ir := s.opcodeAt
    opA := operands[0]?.getD (Config.freeOpA s.draws)
    opB := operands[1]?.getD (Config.freeOpB s.draws)
    draws := s.draws + 1 }

/-- The decode fault: no operand is fetched and there is no detail (40 R106, 60 R201). -/
def State.decodeFault (s : State) : State := (s.latch []).raise .decodeError none

/-- Fetch and decode at the pc, for any opcode map (40 R103 to R107, R113 stages (a) and (b); 93 U3). -/
def State.fetchWith (m : OpcodeMap) (s : State) : Fetched :=
  match decodeWith m (s.opcodeAt :: s.operandsAt) with
  | .ok i _ => .run i (s.latch s.operandsAt)
  | .refused (.operandMissing k) =>
    .stop ((s.latch s.operandsAt).raise .addressOutOfRange (some (addressDetail (s.pc.toNat + k))))
  | .refused (.noHandler _) => .stop s.decodeFault
  | .refused .noBytes => .stop s.decodeFault  -- not reached: the opcode byte is always there (40 R103)

/-- Fetch and decode at the pc (40 R103 to R107). -/
def State.fetch (s : State) : Fetched := s.fetchWith Config.opcodeMap

/-- One `step_req` for any opcode map and any execution stage: while RUNNING, one iteration of the execution loop; in any
other status nothing (40 R113, R120; log entry 3). -/
def stepWith (m : OpcodeMap) (run : Instr → State → Host.Outcome State Fault Refusal) (s : State) :
    Host.Outcome State Fault Refusal :=
  if s.status = .running then
    match s.fetchWith m with
    | .run i t => run i t
    | .stop t => .next t
  else .next s

end Sys2Proof.Machine
end

