-- ==== Sys2Proof/Machine/Step.lean ====
section
/-! DEFINITION. One step (40 R100, R113), and how the host's checks place an instruction. -/

namespace Sys2Proof.Machine

/-- One `step_req` of the core (40 R113, R120; log entry 3). -/
def step (s : State) : Host.Outcome State Fault Refusal := stepWith Config.opcodeMap exec s

/-- The state with an instruction's bytes stored from the pc up and the core started: the host's load and start in one
(20 R65, 70 R231, R232; log entry 4). -/
def State.withFetchWord (s : State) (nbits w : Nat) : State :=
  { s with mem := Memory.writeBytes s.mem s.pc.toNat (tableBytes nbits w), status := .running }

end Sys2Proof.Machine
end

