-- ==== Sys2Proof/Machine/Parameters.lean ====
section
/-! DEFINITION. The core for any values of the parameters the source leaves open (00 R6, 93 U3, U16). The core of
Machine/Dispatch.lean and Machine/Step.lean is this one at the defaults. -/

namespace Sys2Proof.Machine

/-- The execution stage for any parameters: `STACK_EMPTY` reaches POP and RET alone (43 R172, 44 R182). -/
def execFor (p : Params) (i : Instr) (s : State) : Host.Outcome State Fault Refusal :=
  match i with
  | .hlt => execHlt s
  | .ldi a imm => execLdi a imm s
  | .prn a => execPrn a s
  | .mul a b => execMul a b s
  | .add a b => execAdd a b s
  | .push a => execPush a s
  | .pop a => execPopWith p.stackEmpty a s
  | .call a => execCall a s
  | .ret => execRetWith p.stackEmpty s
  | .cmp a b => execCmp a b s
  | .jmp a => execJmp a s
  | .jeq a => execJeq a s
  | .jne a => execJne a s

/-- One step for any parameters. -/
def stepFor (p : Params) (s : State) : Host.Outcome State Fault Refusal := stepWith p.opcodeMap (execFor p) s

end Sys2Proof.Machine
end

