-- ==== Sys2Proof/Machine/Ports.lean ====
section
/-! DEFINITION. The ports of the core and the host's actions on it (40 R101, R119 to R122, 60 R200, R206, R221).
Everything here is read from the state or calls an operation of Machine/Ops.lean or `step`. -/

namespace Sys2Proof.Machine

/-- The code of a fault kind on the status port (60 R200). -/
def FaultKind.code : FaultKind → BitVec 3
  | .decodeError => 3
  | .stackOverflow => 4
  | .stackUnderflow => 5
  | .badRegister => 6
  | .addressOutOfRange => 7

/-- The `status` port (60 R200). -/
def Status.code : Status → BitVec 3
  | .load => 0
  | .running => 1
  | .halted => 2
  | .fault r => r.kind.code

/-- The ports `fault_pc`, `fault_opcode`, `fault_detail` and `fault_detail_valid`: the fault record while the status is a
fault (40 R101, 60 R206). -/
def State.faultPort (s : State) : Option FaultRecord :=
  match s.status with
  | .load => none
  | .running => none
  | .halted => none
  | .fault r => some r

/-- What the trace hook presents once per step: the values at the start of the step (40 R119). -/
structure TraceRecord where
  pc : Byte
  opcode : Byte
  regs : Vector Byte 8
  flags : BitVec 3
  deriving DecidableEq, Repr

/-- The trace ports of the step a `step_req` asks for; `none` is `trace_valid` = 0 (40 R101, R119). -/
def State.tracePort (s : State) : Option TraceRecord :=
  if s.status = .running then
    some { pc := s.pc, opcode := s.opcodeAt, regs := s.x, flags := s.fl.toBits }
  else none

/-- The output port of the step a `step_req` asks for: the register's value in a step that executes PRN; `none` is
`out_valid` = 0 (40 R101, 41 R142). -/
def State.outPort (s : State) : Option Byte :=
  if s.status = .running then
    match s.fetch with
    | .run (.prn a) t => (regOperand a).map t.reg
    | _ => none
  else none

/-- The read-only view `inspect` (40 R101); the output history is in it by 60 R219. -/
structure Inspection where
  x : Vector Byte 8
  pc : Byte
  fl : Flags
  mem : Memory
  out : List Byte
  deriving DecidableEq, Repr

/-- The view `inspect`, readable in every status (40 R101, 60 R219). -/
def State.inspect (s : State) : Inspection := { x := s.x, pc := s.pc, fl := s.fl, mem := s.mem, out := s.out }

/-- What the host may do to the core (40 R122). -/
inductive HostAction where
  | rst
  | load (a v : Byte)
  | start
  | stepReq
  deriving DecidableEq, Repr

/-- The core's answer to an action of the host (40 R101, R120, R122). -/
def act (h : HostAction) (s : State) : Host.Outcome State Fault Refusal :=
  match h with
  | .rst => .next s.rst
  | .load a v => .next (s.loadByte a v)
  | .start => .next s.start
  | .stepReq => step s

/-- The core's answer to a sequence of actions of the host, up to the first that does not answer a state. -/
def actAll : List HostAction → State → Host.Outcome State Fault Refusal
  | [], s => .next s
  | h :: hs, s =>
    match act h s with
    | .next t => actAll hs t
    | .fault r => .fault r
    | .refused r => .refused r

/-- The host's load of an image through the load port, byte k to address k (20 R65, 40 R122). -/
def loadActions (image : List Byte) : List HostAction :=
  image.zipIdx.map fun c => .load (BitVec.ofNat 8 c.2) c.1

/-- The host's run of the core with the step budget `FUEL`, a number of steps the host chooses (70 R234, 93 U24). A run
cut off by it is still RUNNING and is not over (40 R112). -/
def runFuel (fuel : Nat) (s : State) : Host.Outcome State Fault Refusal := Host.Core.run core fuel s

/-- The host's exit code for an error: non-zero (60 R221). -/
def errorExitCode (e : HostError) : Nat := (Config.exitErr e).val

/-- The host's reading of the end of a run as a process exit code: 0 for HALTED, non-zero for a fault; a run that is not
over has none (60 R221). -/
def Status.exitCode : Status → Option Nat
  | .load => none
  | .running => none
  | .halted => some 0
  | .fault r => some (errorExitCode (.coreFault r.kind.code))

end Sys2Proof.Machine
end

