-- ==== Sys2Proof/Safety.lean ====
section
/-! DEFINITION. The terms the statements use: the end of a run, faults and their order, what an instruction may change,
and the invariant of the machine. -/

namespace Sys2Proof.Machine

/-- A run is over exactly when the status is HALTED or a fault (40 R112). -/
def State.Over (s : State) : Prop := s.status = .halted ∨ ∃ r, s.status = .fault r

/-- The operand byte that names a register (30 R74). -/
def regByte (r : RegIndex) : Byte := BitVec.ofNat 8 r.val

/-- The state with a fault recorded and nothing else changed (10 R36, 40 R113). -/
def State.faulted (s : State) (k : FaultKind) (d : Option Detail) : State :=
  { s with status := .fault ⟨k, s.pc, s.ir, d⟩ }

/-- Two states agree on what a precise fault leaves as it was: registers, pc, flags, memory and output (60 R208). -/
def SameArchitecture (s t : State) : Prop :=
  t.x = s.x ∧ t.pc = s.pc ∧ t.fl = s.fl ∧ t.mem = s.mem ∧ t.out = s.out

/-- The bytes of memory from the pc to the top. -/
def State.bytesFrom (s : State) : List Byte :=
  (List.range (256 - s.pc.toNat)).map fun k => Memory.read s.mem (s.pc.toNat + k)

/-! What an instruction may change -/

/-- The registers an instruction writes (10 R25): those its operand byte `A` names as destination, and R7 for the stack
instructions. -/
def WritesRegister (i : Instr) (r : RegIndex) : Prop :=
  match i with
  | .hlt => False
  | .ldi a _ => a = regByte r
  | .prn _ => False
  | .mul a _ => a = regByte r
  | .add a _ => a = regByte r
  | .push _ => r = 7
  | .pop a => a = regByte r ∨ r = 7
  | .call _ => r = 7
  | .ret => r = 7
  | .cmp _ _ => False
  | .jmp _ => False
  | .jeq _ => False
  | .jne _ => False

/-- The address an instruction stores to (20 R52): the decremented stack pointer for PUSH and CALL, else none. -/
def storeAddress (i : Instr) (s : State) : Option Nat :=
  match i with
  | .push _ => some s.spDec.toNat
  | .call _ => some s.spDec.toNat
  | .hlt => none
  | .ldi _ _ => none
  | .prn _ => none
  | .mul _ _ => none
  | .add _ _ => none
  | .pop _ => none
  | .ret => none
  | .cmp _ _ => none
  | .jmp _ => none
  | .jeq _ => none
  | .jne _ => none

/-- The instruction returns `continue` in a state when no fault of its own stops it (41 to 44). -/
def continuesAfter (i : Instr) (f : Flags) : Bool :=
  match i with
  | .hlt => false
  | .ldi _ _ => true
  | .prn _ => true
  | .mul _ _ => true
  | .add _ _ => true
  | .push _ => true
  | .pop _ => true
  | .call _ => false
  | .ret => false
  | .cmp _ _ => true
  | .jmp _ => false
  | .jeq _ => !f.e
  | .jne _ => f.e

/-! The checks of a step, in the order of 60 R209, for any parameters -/

/-- A fault a check finds: its kind and detail. -/
structure FaultCause where
  kind : FaultKind
  detail : Option Detail
  deriving DecidableEq, Repr

/-- The opcode at the pc is the byte of one of these rows. -/
def State.opcodeIn (s : State) (m : OpcodeMap) (rows : List Mnemonic) : Bool :=
  rows.any fun h => decide (m h = s.opcodeAt)

/-- R209, 1: DecodeError. -/
def State.decodeCheck (s : State) (p : Params) : Option FaultCause :=
  if s.opcodeIn p.opcodeMap Mnemonic.all then none else some ⟨.decodeError, none⟩

/-- R209, 2: AddressOutOfRange on the fetch of operand byte `k`, where bits 7:6 of the opcode ask for it. -/
def State.rangeCheck (s : State) (k : Nat) : Option FaultCause :=
  if k ≤ s.opcodeAt.toNat / 64 ∧ 255 < s.pc.toNat + k then
    some ⟨.addressOutOfRange, some (addressDetail (s.pc.toNat + k))⟩
  else none

/-- R209, 3: BadRegister on operand byte `k` of the rows in which it is a register (40 R105). -/
def State.registerCheck (s : State) (m : OpcodeMap) (rows : List Mnemonic) (k : Nat) : Option FaultCause :=
  if s.opcodeIn m rows ∧ 7 < (Memory.read s.mem (s.pc.toNat + k)).toNat then
    some ⟨.badRegister, some (byteDetail (Memory.read s.mem (s.pc.toNat + k)))⟩
  else none

/-- R209, 4: the handler's checks, for CALL the return address before the stack. -/
def State.handlerCheck (s : State) (p : Params) : Option FaultCause :=
  if s.opcodeIn p.opcodeMap [.call] ∧ 255 < s.pc.toNat + 2 then
    some ⟨.addressOutOfRange, some (addressDetail (s.pc.toNat + 2))⟩
  else if s.opcodeIn p.opcodeMap [.push, .call] ∧ s.x[7] = 0x00 then some ⟨.stackOverflow, some 0⟩
  else if s.opcodeIn p.opcodeMap [.pop, .ret] ∧ p.stackEmpty.toNat ≤ s.x[7].toNat then
    some ⟨.stackUnderflow, some (byteDetail s.x[7])⟩
  else none

/-- R209, 5: AddressOutOfRange on the advance. -/
def State.advanceCheck (s : State) (p : Params) : Option FaultCause :=
  if (s.opcodeIn p.opcodeMap [.ldi, .prn, .mul, .add, .push, .pop, .cmp] ∨ (s.opcodeIn p.opcodeMap [.jeq] ∧ s.fl.e = false) ∨
      (s.opcodeIn p.opcodeMap [.jne] ∧ s.fl.e = true)) ∧ 255 < s.pc.toNat + 1 + s.opcodeAt.toNat / 64 then
    some ⟨.addressOutOfRange, some (addressDetail (s.pc.toNat + 1 + s.opcodeAt.toNat / 64))⟩
  else none

/-- The first fault in the order of 60 R209 that stops the instruction at the pc before it has any effect
(60 R209, 1 to 4). -/
def State.earlyFault (s : State) (p : Params) : Option FaultCause :=
  s.decodeCheck p <|> s.rangeCheck 1 <|> s.rangeCheck 2 <|>
  s.registerCheck p.opcodeMap [.ldi, .prn, .mul, .add, .push, .pop, .call, .cmp, .jmp, .jeq, .jne] 1 <|>
  s.registerCheck p.opcodeMap [.mul, .add, .cmp] 2 <|> s.handlerCheck p

/-- The first fault in the order of 60 R209 that applies to the instruction at the pc. -/
def State.firstFault (s : State) (p : Params) : Option FaultCause := s.earlyFault p <|> s.advanceCheck p

/-! The detail of a fault record, from the state the step began in -/

/-- The address of an AddressOutOfRange fault: of the first operand byte past the top, else the address after the
instruction, which for CALL is the return address (60 R205). -/
def State.faultAddress (s : State) : Nat :=
  if 1 ≤ s.opcodeAt.toNat / 64 ∧ 255 < s.pc.toNat + 1 then s.pc.toNat + 1
  else if 2 ≤ s.opcodeAt.toNat / 64 ∧ 255 < s.pc.toNat + 2 then s.pc.toNat + 2
  else s.pc.toNat + 1 + s.opcodeAt.toNat / 64

/-- The operand byte a BadRegister fault names: A if it is above 7, else B (40 R108). -/
def State.offendingOperand (s : State) : Byte :=
  if 7 < (Memory.read s.mem (s.pc.toNat + 1)).toNat then Memory.read s.mem (s.pc.toNat + 1)
  else Memory.read s.mem (s.pc.toNat + 2)

/-- The detail a fault of each kind records (60 R201 to R205). -/
def State.faultDetail (s : State) : FaultKind → Option Detail
  | .decodeError => none
  | .stackOverflow => some (byteDetail s.sp)
  | .stackUnderflow => some (byteDetail s.sp)
  | .badRegister => some (byteDetail s.offendingOperand)
  | .addressOutOfRange => some (addressDetail s.faultAddress)

/-! What a fetch reads -/

/-- The opcode at the pc is a row's with at least this many operand bytes. -/
def State.FetchesOperand (s : State) (k : Nat) : Prop :=
  ∃ h, Config.opcodeMap h = s.opcodeAt ∧ k ≤ h.format.operandCount

/-- The step from `s` that ended in `u` latched `v` wherever it fetched from address `a` (40 R103, R107). -/
def State.FetchSees (s u : State) (a : Nat) (v : Byte) : Prop :=
  (a = s.pc.toNat → u.ir = v) ∧
  (a = s.pc.toNat + 1 → a ≤ 255 → s.FetchesOperand 1 → u.opA = v) ∧
  (a = s.pc.toNat + 2 → a ≤ 255 → s.FetchesOperand 2 → u.opB = v)

/-- Two memories agree on the bytes the instruction at the pc is fetched from (20 R52). -/
def State.SameInstruction (s : State) (m : Memory) : Prop :=
  ∀ k, k ≤ operandCount s.opcodeAt → s.pc.toNat + k ≤ 255 →
    Memory.read m (s.pc.toNat + k) = Memory.read s.mem (s.pc.toNat + k)

/-- What is done to one memory and what is done to another is the same: nothing, or one byte written to one address. -/
def SameWrite (m m' n n' : Memory) (a : Nat) : Prop :=
  (m' = m ∧ n' = n) ∨ ∃ v, m' = Memory.write m a v ∧ n' = Memory.write n a v

/-! The invariant -/

/-- A fault record is one the spec can produce (60 R201 to R205). -/
def FaultRecord.Possible (r : FaultRecord) : Prop :=
  match r.kind, r.detail with
  | .decodeError, none => ∀ h, Config.opcodeMap h ≠ r.opcode
  | .decodeError, some _ => False
  | .stackOverflow, some d =>
    d = 0 ∧ (r.opcode = Config.opcodeMap .push ∨ r.opcode = Config.opcodeMap .call)
  | .stackUnderflow, some d =>
    Config.stackEmpty.toNat ≤ d.toNat ∧ d.toNat ≤ 0xFF ∧ (r.opcode = Config.opcodeMap .pop ∨ r.opcode = Config.opcodeMap .ret)
  | .badRegister, some d => 8 ≤ d.toNat ∧ d.toNat ≤ 255
  | .addressOutOfRange, some d => 256 ≤ d.toNat ∧ d.toNat ≤ 258
  | .stackOverflow, none => False
  | .stackUnderflow, none => False
  | .badRegister, none => False
  | .addressOutOfRange, none => False

/-- A status agrees with the instruction register and the pc: HALTED only at a HLT, a fault record names the
instruction it stands at (60 R206, R210). -/
def State.StatusAgrees (s : State) : Prop :=
  match s.status with
  | .load => True
  | .running => True
  | .halted => s.ir = Config.opcodeMap .hlt
  | .fault r => r.pc = s.pc ∧ r.opcode = s.ir ∧ r.Possible

/-- The invariant: memory in canonical form, at most one flag set (10 R30), and the status in agreement. -/
def State.Inv (s : State) : Prop :=
  Memory.wf s.mem = true ∧ s.fl.exclusive = true ∧ s.StatusAgrees

end Sys2Proof.Machine
end

