-- ==== Sys2Proof/Certificates/Slice0/Obligations.lean ====
section
/-! DEFINITION. The statements for the provers. Where a clause rests on a value or behaviour the spec marks as its own
decision ([decision: see 92]), as derived, or as general knowledge, the docstring says so and the statement's basis is
'derived'. `regByte r` is the operand byte that names register r; the register of a fault record's opcode is `ir`, which
a step loads before it runs an instruction (40 R103). -/

open Sys2Proof Sys2Proof.Machine

/-! Encoding and decoding -/

/-- The words of 30 R86, and one word of each other row, written bit by bit from 30 R76 and R77, decode to the
instructions they stand for. The opcode bytes are the spec's general knowledge (92 D1, log entry 1). -/
def Obligations.SpecWordsDecode : Prop :=
  decode [0b10000010, 0b00000000, 0b00001000] = .ok (.ldi 0 8) [] ∧
  decode [0b10100010, 0b00000000, 0b00000001] = .ok (.mul 0 1) [] ∧
  decode [0b01000111, 0b00000000] = .ok (.prn 0) [] ∧
  decode [0b00000001] = .ok .hlt [] ∧
  decode [0b10100000, 0b00000010, 0b00000111] = .ok (.add 2 7) [] ∧
  decode [0b10100111, 0b00000011, 0b00000101] = .ok (.cmp 3 5) [] ∧
  decode [0b01000101, 0b00000100] = .ok (.push 4) [] ∧
  decode [0b01000110, 0b00000001] = .ok (.pop 1) [] ∧
  decode [0b01010000, 0b00000010] = .ok (.call 2) [] ∧
  decode [0b00010001] = .ok .ret [] ∧
  decode [0b01010100, 0b00000110] = .ok (.jmp 6) [] ∧
  decode [0b01010101, 0b00000101] = .ok (.jeq 5) [] ∧
  decode [0b01010110, 0b00000111] = .ok (.jne 7) []

/-- Decoding an encoded instruction, whatever bytes follow, gives it back, for EVERY opcode map a model may take
(92 D1, D27), every instruction and every value of every operand byte (30 R70 to R77). -/
def Obligations.DecodeEncodeForEveryOpcodeMap : Prop :=
  ∀ m : OpcodeMap, m.Valid → ∀ (i : Instr) (rest : List Byte), decodeWith m (encodeWith m i ++ rest) = .ok i rest

/-- Bytes that decode to an instruction are its encoding followed by the bytes left over (30 R76, R77, R79): no two
words mean one instruction. -/
def Obligations.DecodedBytesAreTheEncoding : Prop :=
  ∀ (bytes : List Byte) (i : Instr) (rest : List Byte), decode bytes = .ok i rest → bytes = encode i ++ rest

/-- The operand count of an opcode is its top two bits as an unsigned number, and it alone tells the length of a
decoded instruction (30 R71). -/
def Obligations.TopTwoBitsTellTheLength : Prop :=
  (∀ op : Byte, operandCount op = (op.extractLsb' 6 2).toNat) ∧
  ∀ (op : Byte) (bytes rest : List Byte) (i : Instr), decode (op :: bytes) = .ok i rest →
    bytes.length = (op.extractLsb' 6 2).toNat + rest.length

/-- A byte with bits 7:6 = 0b11 has no handler under any opcode map, the default or another (30 R72; the spec's decision
92 D27). -/
def Obligations.CountThreeHasNoHandler : Prop :=
  ∀ (m : OpcodeMap) (op : Byte) (bytes : List Byte), 0xC0 ≤ op.toNat →
    decodeWith m (op :: bytes) = .refused (.noHandler op)

/-! The step -/

/-- When the bytes from the pc up decode to an instruction, a RUNNING core's step is exec of that instruction at the
state with the opcode byte in `ir`, the operand bytes in the latches and nothing else of the spec's state changed
(40 R103, R107, R113). What a latch holds without an operand byte is not the spec's (10 R40, 93 U8: no defined value,
any value): that it is a free value, indexed by a counter that each fetch advances, is the model's choice (log
entry 7). -/
def Obligations.StepRunsDecodedInstruction : Prop :=
  ∀ (s : State) (i : Instr) (rest : List Byte), s.status = .running → decode s.bytesFrom = .ok i rest →
    step s = exec i { s with
      ir := Memory.read s.mem s.pc.toNat
      opA := i.operandBytes[0]?.getD (Config.freeOpA s.draws)
      opB := i.operandBytes[1]?.getD (Config.freeOpB s.draws)
      draws := s.draws + 1 }

/-- The same for every value of the parameters the source leaves open, `OPCODE_MAP` and `STACK_EMPTY` (00 R6, 93 U3,
U16); the free values of unused latches and their counter are the model's choice (log entry 7). -/
def Obligations.StepRunsDecodedInstructionForEveryParameters : Prop :=
  ∀ (p : Params) (s : State) (i : Instr) (rest : List Byte), p.opcodeMap.Valid → s.status = .running →
    decodeWith p.opcodeMap s.bytesFrom = .ok i rest →
    stepFor p s = execFor p i { s with
      ir := Memory.read s.mem s.pc.toNat
      opA := i.operandBytes[0]?.getD (Config.freeOpA s.draws)
      opB := i.operandBytes[1]?.getD (Config.freeOpB s.draws)
      draws := s.draws + 1 }

/-- The core is the parameterised core at the defaults of 00 R6: a valid opcode map, STACK_EMPTY = 0xF4 and SP_INIT =
0xF4. The default map and STACK_EMPTY are the spec's decisions (92 D1, D6, log entries 1 and 8). -/
def Obligations.TheCoreIsTheDefaultOfItsParameters : Prop :=
  (∀ (i : Instr) (s : State), exec i s = execFor Config.params i s) ∧ (∀ s : State, step s = stepFor Config.params s) ∧
    Config.params.opcodeMap.Valid ∧ Config.params.stackEmpty = 0xF4 ∧ Config.spInit = 0xF4

/-- From every state a step answers a next state: no step ends outside the states the spec describes
(40 R100, R112, R120). -/
def Obligations.EveryStepAnswersAState : Prop :=
  ∀ s : State, ∃ t, step s = .next t

/-- An opcode byte that is no row's raises DecodeError, with the byte's address and the byte and no detail; a row's
byte never does; there are 243 bytes that do, 0x00 and 0xC0 to 0xFF among them (60 R201). -/
def Obligations.DecodeErrorExactlyOnBytesWithoutHandler : Prop :=
  (∀ s : State, s.status = .running → (∀ h, Config.opcodeMap h ≠ Memory.read s.mem s.pc.toNat) →
    ∃ t, step s = .next t ∧
      t.status = .fault ⟨.decodeError, s.pc, Memory.read s.mem s.pc.toNat, none⟩ ∧ SameArchitecture s t) ∧
  (∀ (s t : State) (r : FaultRecord) (h : Mnemonic), s.status = .running →
    Config.opcodeMap h = Memory.read s.mem s.pc.toNat → step s = .next t → t.status = .fault r →
    r.kind ≠ .decodeError) ∧
  ((List.range 256).filter fun n => Mnemonic.all.all fun h => Config.opcodeMap h != BitVec.ofNat 8 n).length = 243 ∧
  (∀ h, Config.opcodeMap h ≠ 0x00) ∧ ∀ h, (Config.opcodeMap h).toNat < 0xC0

/-- An instruction whose operand bytes would lie past 255 faults before it has any effect: at 255 with one or two
operands, at 254 with two, detail 256 (40 R107; the spec's own decision 92 D9, log entry 10). -/
def Obligations.OperandFetchPastTheTopFaults : Prop :=
  ∀ (s : State) (h : Mnemonic), s.status = .running → Config.opcodeMap h = Memory.read s.mem s.pc.toNat →
    255 < s.pc.toNat + h.format.operandCount →
    ∃ t, step s = .next t ∧
      t.status = .fault ⟨.addressOutOfRange, s.pc, Memory.read s.mem s.pc.toNat, some 256⟩ ∧ SameArchitecture s t

/-- For every value of the parameters, the status after a step is the first fault, in the order of 60 R209, that applies
to the instruction at the pc; with none it is HALTED after HLT and RUNNING otherwise. The order and the range faults are
the spec's own decisions (92 D8 to D11, D21, log entry 10); STACK_EMPTY is a parameter, 0xF4 by default (92 D6, log
entry 8). -/
def Obligations.StepStatusIsTheFirstFault : Prop :=
  ∀ (p : Params) (s : State), p.opcodeMap.Valid → s.status = .running → ∃ t, stepFor p s = .next t ∧ t.status =
    match s.firstFault p with
    | some c => .fault ⟨c.kind, s.pc, Memory.read s.mem s.pc.toNat, c.detail⟩
    | none => if Memory.read s.mem s.pc.toNat = p.opcodeMap .hlt then .halted else .running

/-- No fault moves the pc. A fault that is not the advance fault leaves registers, flags, memory and output as they were.
The advance fault leaves them as the instruction's effects do: as the same instruction leaves them at address 0, where it
completes (60 R208, which the spec derives from 40 R111 and R118; the advance fault is its decision 92 D10). -/
def Obligations.FaultsArePrecise : Prop :=
  ∀ (s t : State) (r : FaultRecord), s.status = .running → step s = .next t → t.status = .fault r →
    t.pc = s.pc ∧ (s.earlyFault Config.params ≠ none → SameArchitecture s t) ∧
    (s.earlyFault Config.params = none → ∃ i rest u, decode s.bytesFrom = .ok i rest ∧
      exec i { s with pc := 0 } = .next u ∧ u.status = .running ∧ u.pc.toNat = (encode i).length ∧
      t.x = u.x ∧ t.fl = u.fl ∧ t.mem = u.mem ∧ t.out = u.out)

/-- The fault record: the address of the opcode byte, the opcode byte, and the detail, which is absent for DecodeError, SP
for a stack fault, the first operand byte above 7 for BadRegister, and for AddressOutOfRange the address past 255
(60 R201 to R206). Once set it stays until `rst`. That A comes before B, the range faults, the empty-stack sentinel and
the way out by `rst` alone are the spec's decisions (92 D6, D9 to D11, D21, D23, log entries 8 and 10). -/
def Obligations.FaultRecordIsSetOnce : Prop :=
  (∀ (s t : State) (r : FaultRecord), s.status = .running → step s = .next t → t.status = .fault r →
    r = ⟨r.kind, s.pc, Memory.read s.mem s.pc.toNat, s.faultDetail r.kind⟩ ∧ r.Possible) ∧
  ∀ (s : State) (r : FaultRecord) (hs : List HostAction), s.status = .fault r → HostAction.rst ∉ hs →
    actAll hs s = .next s

/-! The instructions: what each does when it completes -/

/-- HLT answers the same state with status HALTED; a step that fetches HLT halts with the pc at the HLT, at every
address, 255 included (41 R140, 40 R110; the pc after HLT is the spec's decision 92 D12). -/
def Obligations.HltHalts : Prop :=
  (∀ s : State, exec .hlt s = .next { s with status := .halted }) ∧
  ∀ s : State, s.status = .running → Memory.read s.mem s.pc.toNat = Config.opcodeMap .hlt →
    ∃ t, step s = .next t ∧ t.status = .halted ∧ SameArchitecture s t

/-- LDI puts the immediate byte, unextended, into the register its operand A names, any of R0 to R7, and advances by 3
(41 R141); if that passes 255 the write stays and the advance faults (40 R111; the spec's decision 92 D10). -/
def Obligations.LdiLoadsImmediate : Prop :=
  (∀ (r : RegIndex) (v : Byte) (s : State), s.pc.toNat ≤ 252 →
    exec (.ldi (regByte r) v) s = .next { s with x := s.x.set r v, pc := s.pc + 3 }) ∧
  ∀ (r : RegIndex) (v : Byte) (s : State), 253 ≤ s.pc.toNat →
    exec (.ldi (regByte r) v) s = .next
      ({ s with x := s.x.set r v }.faulted .addressOutOfRange (some (BitVec.ofNat 9 (s.pc.toNat + 3))))

/-- PRN appends the register's byte to the output history and advances by 2 (41 R142, 10 R37); if that passes 255 the
byte stays and the advance faults (40 R111; the spec's decision 92 D10). -/
def Obligations.PrnEmitsRegister : Prop :=
  (∀ (r : RegIndex) (s : State), s.pc.toNat ≤ 253 →
    exec (.prn (regByte r)) s = .next { s with out := s.out ++ [s.x[r]], pc := s.pc + 2 }) ∧
  ∀ (r : RegIndex) (s : State), 254 ≤ s.pc.toNat →
    exec (.prn (regByte r)) s = .next
      ({ s with out := s.out ++ [s.x[r]] }.faulted .addressOutOfRange (some (BitVec.ofNat 9 (s.pc.toNat + 2))))

/-- MUL writes the product modulo 256 to x[A], with A = B as well, and advances by 3 (42 R151); if that passes 255 the
write stays and the advance faults (40 R111; the spec's decision 92 D10). -/
def Obligations.MulMultipliesModulo256 : Prop :=
  (∀ (a b : RegIndex) (s : State), s.pc.toNat ≤ 252 →
    exec (.mul (regByte a) (regByte b)) s = .next
      { s with x := s.x.set a (BitVec.ofNat 8 (s.x[a].toNat * s.x[b].toNat % 256)), pc := s.pc + 3 }) ∧
  ∀ (a b : RegIndex) (s : State), 253 ≤ s.pc.toNat →
    exec (.mul (regByte a) (regByte b)) s = .next
      ({ s with x := s.x.set a (BitVec.ofNat 8 (s.x[a].toNat * s.x[b].toNat % 256)) }.faulted
        .addressOutOfRange (some (BitVec.ofNat 9 (s.pc.toNat + 3))))

/-- ADD writes the sum modulo 256 to x[A], with A = B as well, and advances by 3 (42 R152); if that passes 255 the write
stays and the advance faults (40 R111; the spec's decision 92 D10). -/
def Obligations.AddAddsModulo256 : Prop :=
  (∀ (a b : RegIndex) (s : State), s.pc.toNat ≤ 252 →
    exec (.add (regByte a) (regByte b)) s = .next
      { s with x := s.x.set a (BitVec.ofNat 8 ((s.x[a].toNat + s.x[b].toNat) % 256)), pc := s.pc + 3 }) ∧
  ∀ (a b : RegIndex) (s : State), 253 ≤ s.pc.toNat →
    exec (.add (regByte a) (regByte b)) s = .next
      ({ s with x := s.x.set a (BitVec.ofNat 8 ((s.x[a].toNat + s.x[b].toNat) % 256)) }.faulted
        .addressOutOfRange (some (BitVec.ofNat 9 (s.pc.toNat + 3))))

/-- CMP sets exactly one flag by the unsigned comparison of x[A] with x[B], writes no register and advances by 3
(42 R153); if that passes 255 the flags stay and the advance faults (40 R111; the spec's decision 92 D10). -/
def Obligations.CmpSetsExactlyOneFlag : Prop :=
  (∀ (a b : RegIndex) (s : State), s.pc.toNat ≤ 252 →
    exec (.cmp (regByte a) (regByte b)) s = .next
      { s with
        fl := if s.x[a] = s.x[b] then ⟨true, false, false⟩
          else if s.x[a].toNat < s.x[b].toNat then ⟨false, false, true⟩ else ⟨false, true, false⟩
        pc := s.pc + 3 }) ∧
  ∀ (a b : RegIndex) (s : State), 253 ≤ s.pc.toNat →
    exec (.cmp (regByte a) (regByte b)) s = .next
      ({ s with
        fl := if s.x[a] = s.x[b] then ⟨true, false, false⟩
          else if s.x[a].toNat < s.x[b].toNat then ⟨false, false, true⟩ else ⟨false, true, false⟩ }.faulted
        .addressOutOfRange (some (BitVec.ofNat 9 (s.pc.toNat + 3))))

/-- PUSH with SP not 0 lowers SP by 1 and stores the register at the new SP; PUSH R7 stores the lowered SP; it advances
by 2 (43 R171; the order for R7 is the spec's decision 92 D7). If the advance passes 255 the push stays and the advance
faults (40 R111; 92 D10). -/
def Obligations.PushStoresBelowTheStackPointer : Prop :=
  (∀ (r : RegIndex) (s : State), s.x[7] ≠ 0 → s.pc.toNat ≤ 253 →
    exec (.push (regByte r)) s = .next
      { s with
        x := s.x.set 7 (s.x[7] - 1)
        mem := Memory.write s.mem (s.x[7].toNat - 1) (if r = 7 then s.x[7] - 1 else s.x[r])
        pc := s.pc + 2 }) ∧
  ∀ (r : RegIndex) (s : State), s.x[7] ≠ 0 → 254 ≤ s.pc.toNat →
    exec (.push (regByte r)) s = .next
      ({ s with
        x := s.x.set 7 (s.x[7] - 1)
        mem := Memory.write s.mem (s.x[7].toNat - 1) (if r = 7 then s.x[7] - 1 else s.x[r]) }.faulted
        .addressOutOfRange (some (BitVec.ofNat 9 (s.pc.toNat + 2))))

/-- POP with SP below 0xF4 puts the byte at SP into the register and raises SP by 1; POP R7 leaves that byte plus 1,
modulo 256; it advances by 2 (43 R172; the order for R7 is the spec's decision 92 D7, the bound 92 D6). If the advance
passes 255 the pop stays and the advance faults (40 R111; 92 D10). -/
def Obligations.PopLoadsTheTop : Prop :=
  (∀ (r : RegIndex) (s : State), s.x[7].toNat < 0xF4 → s.pc.toNat ≤ 253 →
    exec (.pop (regByte r)) s = .next
      { s with
        x := if r = 7 then s.x.set 7 (Memory.read s.mem s.x[7].toNat + 1)
          else (s.x.set r (Memory.read s.mem s.x[7].toNat)).set 7 (s.x[7] + 1)
        pc := s.pc + 2 }) ∧
  ∀ (r : RegIndex) (s : State), s.x[7].toNat < 0xF4 → 254 ≤ s.pc.toNat →
    exec (.pop (regByte r)) s = .next
      ({ s with
        x := if r = 7 then s.x.set 7 (Memory.read s.mem s.x[7].toNat + 1)
          else (s.x.set r (Memory.read s.mem s.x[7].toNat)).set 7 (s.x[7] + 1) }.faulted
        .addressOutOfRange (some (BitVec.ofNat 9 (s.pc.toNat + 2))))

/-- CALL with SP not 0 pushes pc + 2 and jumps to the register, CALL R7 to the lowered SP (44 R181; the order for R7 is
the spec's decision 92 D7); where pc + 2 does not fit a byte it faults with nothing written, whatever SP is (the spec's
decisions 92 D11 and D21). -/
def Obligations.CallPushesReturnAddressAndJumps : Prop :=
  (∀ (r : RegIndex) (s : State), s.x[7] ≠ 0 → s.pc.toNat ≤ 253 →
    exec (.call (regByte r)) s = .next
      { s with
        x := s.x.set 7 (s.x[7] - 1)
        mem := Memory.write s.mem (s.x[7].toNat - 1) (s.pc + 2)
        pc := if r = 7 then s.x[7] - 1 else s.x[r] }) ∧
  ∀ (r : RegIndex) (s : State), 254 ≤ s.pc.toNat →
    exec (.call (regByte r)) s = .next
      (s.faulted .addressOutOfRange (some (BitVec.ofNat 9 (s.pc.toNat + 2))))

/-- RET with SP below 0xF4 raises SP by 1 and jumps to the byte it popped, from every address (44 R182; the bound is the
spec's decision 92 D6). -/
def Obligations.RetPopsThePc : Prop :=
  ∀ s : State, s.x[7].toNat < 0xF4 →
    exec .ret s = .next
      { s with x := s.x.set 7 (s.x[7] + 1), pc := Memory.read s.mem s.x[7].toNat }

/-- JMP sets the pc to the register's value, from every address and to every address (44 R180, R183). -/
def Obligations.JmpJumpsToRegister : Prop :=
  ∀ (r : RegIndex) (s : State), exec (.jmp (regByte r)) s = .next { s with pc := s.x[r] }

/-- JEQ jumps to the register's value if E = 1 and advances by 2 if E = 0, whatever G and L are (44 R184); the advance
past 255 faults (40 R111; the spec's decision 92 D10). -/
def Obligations.JeqJumpsIfEqual : Prop :=
  (∀ (r : RegIndex) (s : State), s.fl.e = true → exec (.jeq (regByte r)) s = .next { s with pc := s.x[r] }) ∧
  (∀ (r : RegIndex) (s : State), s.fl.e = false → s.pc.toNat ≤ 253 →
    exec (.jeq (regByte r)) s = .next { s with pc := s.pc + 2 }) ∧
  ∀ (r : RegIndex) (s : State), s.fl.e = false → 254 ≤ s.pc.toNat →
    exec (.jeq (regByte r)) s = .next (s.faulted .addressOutOfRange (some (BitVec.ofNat 9 (s.pc.toNat + 2))))

/-- JNE jumps to the register's value if E = 0 and advances by 2 if E = 1, whatever G and L are (44 R185); the advance
past 255 faults (40 R111; the spec's decision 92 D10). -/
def Obligations.JneJumpsIfNotEqual : Prop :=
  (∀ (r : RegIndex) (s : State), s.fl.e = false → exec (.jne (regByte r)) s = .next { s with pc := s.x[r] }) ∧
  (∀ (r : RegIndex) (s : State), s.fl.e = true → s.pc.toNat ≤ 253 →
    exec (.jne (regByte r)) s = .next { s with pc := s.pc + 2 }) ∧
  ∀ (r : RegIndex) (s : State), s.fl.e = true → 254 ≤ s.pc.toNat →
    exec (.jne (regByte r)) s = .next (s.faulted .addressOutOfRange (some (BitVec.ofNat 9 (s.pc.toNat + 2))))

/-! The instructions: where each faults -/

/-- BadRegister: an instruction with a register operand above 7 raises it before it has any effect, the detail being the
first such operand byte, A before B; it is raised for nothing else (60 R204, 40 R108). That A comes before B, and that an
operand a branch does not use is checked too, are the spec's decisions (60 R209, 92 D8, D21, log entry 10). -/
def Obligations.BadRegisterExactlyOnOperandsAboveSeven : Prop :=
  (∀ (i : Instr) (s : State) (b : Byte), i.regOperands.find? (fun r => decide (7 < r.toNat)) = some b →
    exec i s = .next (s.faulted .badRegister (some (b.setWidth 9)))) ∧
  ∀ (i : Instr) (s t : State) (r : FaultRecord), s.status = .running → exec i s = .next t → t.status = .fault r →
    r.kind = .badRegister → ∃ b ∈ i.regOperands, 7 < b.toNat ∧ r.detail = some (b.setWidth 9)

/-- StackOverflow: PUSH, and CALL where its return address fits a byte, raise it when SP = 0, before anything is written,
with detail 0; nothing else raises it (60 R202). -/
def Obligations.StackOverflowExactlyOnPushAtZero : Prop :=
  (∀ (r : RegIndex) (s : State), s.x[7] = 0 →
    exec (.push (regByte r)) s = .next (s.faulted .stackOverflow (some 0))) ∧
  (∀ (r : RegIndex) (s : State), s.x[7] = 0 → s.pc.toNat ≤ 253 →
    exec (.call (regByte r)) s = .next (s.faulted .stackOverflow (some 0))) ∧
  ∀ (i : Instr) (s t : State) (r : FaultRecord), s.status = .running → exec i s = .next t → t.status = .fault r →
    r.kind = .stackOverflow → s.x[7] = 0 ∧ ∃ a, i = .push a ∨ i = .call a

/-- StackUnderflow: POP and RET raise it when SP is at or above the empty-stack sentinel, before the read, with detail
SP; nothing else raises it (60 R203). -/
def Obligations.StackUnderflowExactlyOnPopWhenEmpty : Prop :=
  (∀ (r : RegIndex) (s : State), 0xF4 ≤ s.x[7].toNat →
    exec (.pop (regByte r)) s = .next (s.faulted .stackUnderflow (some (s.x[7].setWidth 9)))) ∧
  (∀ s : State, 0xF4 ≤ s.x[7].toNat →
    exec .ret s = .next (s.faulted .stackUnderflow (some (s.x[7].setWidth 9)))) ∧
  ∀ (i : Instr) (s t : State) (r : FaultRecord), s.status = .running → exec i s = .next t → t.status = .fault r →
    r.kind = .stackUnderflow → 0xF4 ≤ s.x[7].toNat ∧ ((∃ a, i = .pop a) ∨ i = .ret)

/-- For every STACK_EMPTY: POP and RET below it do what 43 R172 and 44 R182 say, at or above it they raise StackUnderflow
with detail SP, and no other instruction depends on it (93 U16). The order for POP R7 and the advance fault are the
spec's decisions (92 D7, D10). -/
def Obligations.PopAndRetForEverySentinel : Prop :=
  (∀ (p : Params) (r : RegIndex) (s : State), s.x[7].toNat < p.stackEmpty.toNat → s.pc.toNat ≤ 253 →
    execFor p (.pop (regByte r)) s = .next
      { s with
        x := if r = 7 then s.x.set 7 (Memory.read s.mem s.x[7].toNat + 1)
          else (s.x.set r (Memory.read s.mem s.x[7].toNat)).set 7 (s.x[7] + 1)
        pc := s.pc + 2 }) ∧
  (∀ (p : Params) (r : RegIndex) (s : State), s.x[7].toNat < p.stackEmpty.toNat → 254 ≤ s.pc.toNat →
    execFor p (.pop (regByte r)) s = .next
      ({ s with
        x := if r = 7 then s.x.set 7 (Memory.read s.mem s.x[7].toNat + 1)
          else (s.x.set r (Memory.read s.mem s.x[7].toNat)).set 7 (s.x[7] + 1) }.faulted
        .addressOutOfRange (some (BitVec.ofNat 9 (s.pc.toNat + 2))))) ∧
  (∀ (p : Params) (s : State), s.x[7].toNat < p.stackEmpty.toNat →
    execFor p .ret s = .next { s with x := s.x.set 7 (s.x[7] + 1), pc := Memory.read s.mem s.x[7].toNat }) ∧
  (∀ (p : Params) (r : RegIndex) (s : State), p.stackEmpty.toNat ≤ s.x[7].toNat →
    execFor p (.pop (regByte r)) s = .next (s.faulted .stackUnderflow (some (s.x[7].setWidth 9))) ∧
    execFor p .ret s = .next (s.faulted .stackUnderflow (some (s.x[7].setWidth 9)))) ∧
  ∀ (p : Params) (i : Instr) (s : State), (∀ a, i ≠ .pop a) → i ≠ .ret → execFor p i s = exec i s

/-- An instruction that returns `continue` where its advance passes 255 does all it does anywhere else, but its pc stays
and the status is the advance fault (40 R111; the spec's decision 92 D10). "Anywhere else" is address 0: there the
instruction advances exactly when it completes. -/
def Obligations.AdvanceFaultKeepsTheEffects : Prop :=
  ∀ (i : Instr) (s t u : State), continuesAfter i s.fl = true → 255 < s.pc.toNat + (encode i).length →
    exec i s = .next t → exec i { s with pc := 0 } = .next u → u.pc ≠ 0 →
    t = { u with
      pc := s.pc
      status := .fault ⟨.addressOutOfRange, s.pc, s.ir, some (BitVec.ofNat 9 (s.pc.toNat + (encode i).length))⟩ }

/-- HLT is the only normal termination: a step from RUNNING ends HALTED exactly when it fetched HLT; HALTED's status code
is no fault kind's, and the host maps it, and no fault, to exit code 0 (60 R210). -/
def Obligations.HltIsTheOnlyNormalTermination : Prop :=
  (∀ s t : State, s.status = .running → step s = .next t →
    (t.status = .halted ↔ Memory.read s.mem s.pc.toNat = Config.opcodeMap .hlt)) ∧
  (∀ k : FaultKind, k.code ≠ Status.halted.code) ∧
  Status.halted.exitCode = some 0 ∧ ∀ r : FaultRecord, (Status.fault r).exitCode ≠ some 0

/-! Frames: what an instruction leaves unchanged -/

/-- Every register is unchanged except those 10 R25 says the instruction writes: x[A] for LDI, MUL, ADD and POP, and R7
for PUSH, POP, CALL and RET (R25 is the spec's derivation from the instruction rules). -/
def Obligations.RegisterFrame : Prop :=
  ∀ (i : Instr) (s t : State) (r : RegIndex), exec i s = .next t → ¬ WritesRegister i r → t.x[r] = s.x[r]

/-- Every byte of memory reads as before except, for PUSH and CALL, the byte at the decremented stack pointer
(20 R52). -/
def Obligations.MemoryFrame : Prop :=
  ∀ (i : Instr) (s t : State) (a : Nat), exec i s = .next t → storeAddress i s ≠ some a →
    Memory.read t.mem a = Memory.read s.mem a

/-- The instruction register, the operand latches and the fetch counter are unchanged by every instruction; the output
history is unchanged except by PRN, which appends at most one byte (10 R34, R37, R40). -/
def Obligations.LatchAndOutputFrame : Prop :=
  ∀ (i : Instr) (s t : State), exec i s = .next t →
    t.ir = s.ir ∧ t.opA = s.opA ∧ t.opB = s.opB ∧ t.draws = s.draws ∧
    ((∀ a, i ≠ .prn a) → t.out = s.out) ∧ (t.out = s.out ∨ ∃ v, t.out = s.out ++ [v])

/-- The status is unchanged except by HLT, which halts, and by a fault, whose record names the instruction's pc and
opcode; after a fault the pc stays (10 R36, 40 R110, R113). -/
def Obligations.StatusFrame : Prop :=
  ∀ (i : Instr) (s t : State), exec i s = .next t →
    t.status = s.status ∨ (i = .hlt ∧ t.status = .halted) ∨
    ∃ k d, t.status = .fault ⟨k, s.pc, s.ir, d⟩ ∧ t.pc = s.pc

/-- The flags: CMP alone writes them, leaves exactly one set when no operand is a bad register, and writes no register;
ADD and MUL, like every instruction but JEQ and JNE, give the same result whatever the flags are; JEQ and JNE depend on E
alone (10 R30, 42 R154). -/
def Obligations.FlagsWrittenByCmpReadByBranches : Prop :=
  (∀ (i : Instr) (s t : State), exec i s = .next t → (∀ a b, i ≠ .cmp a b) → t.fl = s.fl) ∧
  (∀ (a b : Byte) (s t : State), exec (.cmp a b) s = .next t →
    t.x = s.x ∧ (Instr.wf (.cmp a b) = true →
      t.fl = ⟨true, false, false⟩ ∨ t.fl = ⟨false, true, false⟩ ∨ t.fl = ⟨false, false, true⟩)) ∧
  (∀ (i : Instr) (s t : State), exec i s = .next t → s.fl.exclusive = true → t.fl.exclusive = true) ∧
  (∀ (i : Instr) (s t u : State) (f : Flags), (∀ a, i ≠ .jeq a ∧ i ≠ .jne a) →
    exec i s = .next t → exec i { s with fl := f } = .next u → { u with fl := t.fl } = t) ∧
  ∀ (i : Instr) (s t u : State) (g l : Bool),
    exec i s = .next t → exec i { s with fl := ⟨s.fl.e, g, l⟩ } = .next u → { u with fl := t.fl } = t

/-- What reads and writes memory (20 R52). PUSH and CALL alone write it in execution, at the decremented SP. Of two
memories an instruction sees no difference and does the same to both, but that POP and RET see the byte at SP. A step
also sees its instruction's own bytes, and no other byte. Of the host's actions but `rst` and a step, the load alone
writes memory, and only while LOAD. -/
def Obligations.MemoryAccessors : Prop :=
  (∀ (i : Instr) (s t : State), exec i s = .next t → (∀ a, i ≠ .push a ∧ i ≠ .call a) → t.mem = s.mem) ∧
  (∀ (i : Instr) (s t u : State) (m : Memory), exec i s = .next t → exec i { s with mem := m } = .next u →
    (i.mnemonic = .pop ∨ i.mnemonic = .ret → Memory.read m s.x[7].toNat = Memory.read s.mem s.x[7].toNat) →
    { u with mem := t.mem } = t ∧ SameWrite s.mem t.mem m u.mem (s.x[7].toNat - 1)) ∧
  (∀ (s t u : State) (m : Memory), s.status = .running → step s = .next t → step { s with mem := m } = .next u →
    s.SameInstruction m →
    (s.opcodeIn Config.opcodeMap [.pop, .ret] = true →
      Memory.read m s.x[7].toNat = Memory.read s.mem s.x[7].toNat) →
    { u with mem := t.mem } = t ∧ SameWrite s.mem t.mem m u.mem (s.x[7].toNat - 1)) ∧
  ∀ (h : HostAction) (s t : State), h ≠ .stepReq → h ≠ .rst → act h s = .next t →
    t.mem = s.mem ∨ (s.status = .load ∧ ∃ a v, h = .load a v ∧ t.mem = Memory.write s.mem a.toNat v)

/-- A register the instruction at the pc does not name, R7 excepted, has no effect on a step and is not changed by it.
R5 and R6, the inert interrupt conventions, are such registers (10 R24; that an operand may name them is the spec's
decision 92 D16). -/
def Obligations.UnnamedRegisterIsInert : Prop :=
  ∀ (s t : State) (q : RegIndex) (v : Byte), q ≠ 7 →
    (∀ i rest, decode s.bytesFrom = .ok i rest → regByte q ∉ i.regOperands) →
    step s = .next t →
    t.x[q] = s.x[q] ∧ step { s with x := s.x.set q v } = .next { t with x := t.x.set q v }

/-! Laws across instructions -/

/-- PUSH then POP of one register leaves every register and the stack pointer as before, R7 included, with 1 ≤ SP ≤ 0xF4
before the pair; memory keeps the pushed byte (43 R174, which the spec derives). -/
def Obligations.PushPopRoundTrip : Prop :=
  ∀ (r : RegIndex) (s : State), 1 ≤ s.x[7].toNat → s.x[7].toNat ≤ 0xF4 → s.pc.toNat ≤ 251 →
    ∃ t u, exec (.push (regByte r)) s = .next t ∧ exec (.pop (regByte r)) t = .next u ∧
      u.x = s.x ∧ u.pc = s.pc + 4 ∧ u.fl = s.fl ∧ u.out = s.out ∧ u.status = s.status ∧
      Memory.read u.mem (s.x[7].toNat - 1) = if r = 7 then s.x[7] - 1 else s.x[r]

/-- A RET that finds SP and the top byte as a CALL left them resumes at the CALL's pc + 2, with SP as before the CALL
(44 R187, which the spec derives). -/
def Obligations.CallRetResumesAfterTheCall : Prop :=
  ∀ (r : RegIndex) (s : State), 1 ≤ s.x[7].toNat → s.x[7].toNat ≤ 0xF4 → s.pc.toNat ≤ 253 →
    ∃ t, exec (.call (regByte r)) s = .next t ∧
      ∀ u : State, u.x[7] = t.x[7] → Memory.read u.mem u.x[7].toNat = Memory.read t.mem t.x[7].toNat →
        ∃ w, exec .ret u = .next w ∧ w.pc = s.pc + 2 ∧ w.x[7] = s.x[7] ∧ w.status = u.status

/-- A CMP directly followed by JEQ, or by JNE, branches by the comparison just made: no flag-use distance
(70 R235, 44 R184, R185). -/
def Obligations.CompareThenBranch : Prop :=
  ∀ (a b r : RegIndex) (s : State), s.pc.toNat ≤ 250 →
    ∃ t u w, exec (.cmp (regByte a) (regByte b)) s = .next t ∧
      exec (.jeq (regByte r)) t = .next u ∧ exec (.jne (regByte r)) t = .next w ∧
      u.pc = (if s.x[a] = s.x[b] then s.x[r] else s.pc + 5) ∧
      w.pc = (if s.x[a] = s.x[b] then s.pc + 5 else s.x[r]) ∧ u.x = s.x ∧ w.x = s.x

/-- The byte a PUSH (of any register) or a CALL stores is what the very next step fetches wherever it fetches from that
address, as opcode or as operand; every fetch reads what memory holds; and a byte stays until a step stores to its
address (20 R63, 70 R236; the spec's decision 92 D13; the order for R7 is 92 D7). -/
def Obligations.NextFetchSeesTheStore : Prop :=
  (∀ (r : RegIndex) (s t u : State), s.status = .running → s.x[7] ≠ 0 → s.pc.toNat ≤ 253 →
    exec (.push (regByte r)) s = .next t → step t = .next u →
    t.FetchSees u (s.x[7].toNat - 1) (if r = 7 then s.x[7] - 1 else s.x[r])) ∧
  (∀ (r : RegIndex) (s t u : State), s.status = .running → s.x[7] ≠ 0 → s.pc.toNat ≤ 253 →
    exec (.call (regByte r)) s = .next t → step t = .next u →
    t.FetchSees u (s.x[7].toNat - 1) (s.pc + 2)) ∧
  (∀ (s u : State) (a : Nat), s.status = .running → step s = .next u →
    s.FetchSees u a (Memory.read s.mem a)) ∧
  ∀ (s u : State) (a : Nat), (∀ i rest, decode s.bytesFrom = .ok i rest → storeAddress i s ≠ some a) →
    step s = .next u → Memory.read u.mem a = Memory.read s.mem a

/-- A MUL result is 0 exactly when a factor is 0 or the exponents of 2 in the factors sum to at least 8
(42 R155, which the spec derives). -/
def Obligations.MulIsZeroExactlyOnMultiplesOf256 : Prop :=
  ∀ (a b : RegIndex) (s t : State), exec (.mul (regByte a) (regByte b)) s = .next t →
    (t.x[a] = 0 ↔ s.x[a] = 0 ∨ s.x[b] = 0 ∨
      8 ≤ padicValNat 2 s.x[a].toNat + padicValNat 2 s.x[b].toNat)

/-! The whole machine and its host -/

/-- The invariant holds at reset. -/
def Obligations.InvariantAtReset : Prop := State.reset.Inv

/-- Every step keeps the invariant: memory in canonical form, at most one flag set (10 R30), a HALTED core stands at a
HLT, and a fault record is one the spec can produce and names the pc and `ir` (60 R201 to R206). The record's range
details are the spec's own decisions (92 D9 to D11). -/
def Obligations.StepKeepsTheInvariant : Prop :=
  ∀ s t : State, s.Inv → step s = .next t → t.Inv

/-- Every sequence of the host's actions (reset, load, start, step) answers a state, and from a state with the invariant
that state has it (40 R122). -/
def Obligations.HostActionsKeepTheInvariant : Prop :=
  ∀ (hs : List HostAction) (s : State), ∃ t, actAll hs s = .next t ∧ (s.Inv → t.Inv)

/-- Once the run is over, by HALTED or a fault, no number of steps and no sequence of host actions without `rst` changes
any state (40 R112, 60 R207; that only `rst` leaves these states is the spec's decision 92 D23). -/
def Obligations.OverIsFinal : Prop :=
  ∀ s : State, s.Over →
    (∀ k, Host.Core.run core k s = .next s) ∧ ∀ hs : List HostAction, HostAction.rst ∉ hs → actAll hs s = .next s

/-- The step budget FUEL: a run of a RUNNING core is RUNNING or over when the budget ends; what a larger budget adds runs on
from there; and once over, no larger budget changes anything (70 R234, 40 R112; the budget is the spec's decision
92 D22). -/
def Obligations.BudgetCutsTheRunOff : Prop :=
  (∀ (fuel : Nat) (s : State), s.status = .running → ∃ t, runFuel fuel s = .next t ∧ (t.status = .running ∨ t.Over)) ∧
  (∀ (fuel more : Nat) (s t : State), runFuel fuel s = .next t → runFuel (fuel + more) s = runFuel more t) ∧
  ∀ (fuel more : Nat) (s t : State), runFuel fuel s = .next t → t.Over → runFuel (fuel + more) s = .next t

/-- A JMP whose register holds its own address runs for ever: whatever the budget, the core is still RUNNING at it
(44 R183, 70 R234). -/
def Obligations.JumpToItselfNeverEnds : Prop :=
  ∀ (r : RegIndex) (rest : List Byte) (s : State), s.status = .running →
    decode s.bytesFrom = .ok (.jmp (regByte r)) rest → s.x[r] = s.pc →
    ∀ fuel, ∃ t, runFuel fuel s = .next t ∧ t.status = .running ∧ t.pc = s.pc ∧ t.x = s.x ∧ t.out = s.out

/-- The output history only grows, whatever the host does short of `rst` (10 R37). -/
def Obligations.OutputOnlyGrows : Prop :=
  ∀ (hs : List HostAction) (s t : State), HostAction.rst ∉ hs → actAll hs s = .next t → s.out <+: t.out

/-- The bytes a step appends to the output history are those it presents on the output port, at most one
(40 R101, 41 R142; the ports are the spec's own, 92 D15). -/
def Obligations.OutputPortIsAppended : Prop :=
  ∀ s t : State, step s = .next t → t.out = s.out ++ s.outPort.toList

/-- `rst` from any state gives every register 0 but R7 = 0xF4, pc 0, no flag, memory all 0, no output and status LOAD
(70 R230, 10 R38; all but the registers are the spec's own decisions, log entries 5 and 6). -/
def Obligations.ResetValues : Prop :=
  ∀ s : State, (∀ r : RegIndex, s.rst.x[r] = if r = 7 then 0xF4 else 0x00) ∧ s.rst.pc = 0 ∧
    s.rst.fl = ⟨false, false, false⟩ ∧ (∀ a, Memory.read s.rst.mem a = 0x00) ∧ s.rst.out = [] ∧
    s.rst.status = .load

/-- The load port: while LOAD it writes the byte at the address and changes nothing else; in any other status it does
nothing (40 R101, R120). The load contract: while LOAD, an image of at most 256 bytes is placed from address 0 up and
nothing else changes; a longer one is refused; in any other status the load has no effect; and the load of an image is
the load port used once for each byte, from address 0 up (20 R65). The ports and the refusal are the spec's decisions
(92 D15, D17). -/
def Obligations.LoadPlacesTheImage : Prop :=
  (∀ (s : State) (a v : Byte), s.status = .load → ∃ t, act (.load a v) s = .next t ∧ { t with mem := s.mem } = s ∧
    ∀ b, Memory.read t.mem b = if b = a.toNat then v else Memory.read s.mem b) ∧
  (∀ (s : State) (a v : Byte), s.status ≠ .load → act (.load a v) s = .next s) ∧
  (∀ (s : State) (image : List Byte), s.status = .load → image.length ≤ 256 →
    ∃ t, s.loadImage image = some t ∧ { t with mem := s.mem } = s ∧
      ∀ a, Memory.read t.mem a = image[a]?.getD (Memory.read s.mem a)) ∧
  (∀ (s : State) (image : List Byte), 256 < image.length → s.loadImage image = none) ∧
  (∀ (s t : State) (image : List Byte), s.status ≠ .load → s.loadImage image = some t → t = s) ∧
  ∀ (s t : State) (image : List Byte), s.loadImage image = some t → actAll (loadActions image) s = .next t

/-- Boot: after reset, the load of an image whose first bytes decode to an instruction, and start, the first step runs
that instruction at pc 0 with the reset registers and the image in memory (70 R230 to R233). The entry point is the
spec's decision 92 D4 (log entry 6), and so is the 0x00 a cell the image does not reach reads as (92 D5, log entry 5). -/
def Obligations.BootRunsTheFirstInstruction : Prop :=
  ∀ (s : State) (image rest : List Byte) (i : Instr), image.length ≤ 256 → decode image = .ok i rest →
    ∃ t u, s.rst.loadImage image = some t ∧ step t.start = exec i u ∧ u.status = .running ∧ u.pc = 0 ∧
      some u.ir = (encode i).head? ∧ u.x = s.rst.x ∧ u.fl = s.rst.fl ∧ u.out = [] ∧
      ∀ a, Memory.read u.mem a = image[a]?.getD 0x00

/-- The status port: codes 0 to 7 as 60 R200 lists them (the numbers are the spec's decision 92 D14). -/
def Obligations.StatusCodes : Prop :=
  Status.load.code = 0 ∧ Status.running.code = 1 ∧ Status.halted.code = 2 ∧
  ∀ (p o : Byte) (d : Option Detail), (Status.fault ⟨.decodeError, p, o, d⟩).code = 3 ∧
    (Status.fault ⟨.stackOverflow, p, o, d⟩).code = 4 ∧ (Status.fault ⟨.stackUnderflow, p, o, d⟩).code = 5 ∧
    (Status.fault ⟨.badRegister, p, o, d⟩).code = 6 ∧ (Status.fault ⟨.addressOutOfRange, p, o, d⟩).code = 7
end

