-- ==== Sys2Proof/Laws/Memory.lean ====
section
/-! SUPPORT. The laws of memory: what a read gives after a write, and that every operation keeps the canonical form. -/

namespace Sys2Proof.Machine

/-! Reads -/

theorem Memory.find?_erase (m : Memory) (a b : Nat) :
    Memory.find? (Memory.erase m a) b = if b = a then none else Memory.find? m b := by
  induction m with
  | nil => simp [Memory.erase, Memory.find?]
  | cons c m ih =>
    simp only [Memory.erase, List.filter_cons] at ih ⊢
    by_cases hc : c.1 = a
    · simp only [hc, ne_eq, not_true_eq_false, decide_false, Bool.false_eq_true, ↓reduceIte, ih, Memory.find?]
      grind
    · simp only [hc, ne_eq, not_false_eq_true, decide_true, ↓reduceIte, Memory.find?, ih]
      grind

theorem Memory.find?_insert (m : Memory) (a b : Nat) (v : Byte) (h : Memory.find? m a = none) :
    Memory.find? (Memory.insert m a v) b = if b = a then some v else Memory.find? m b := by
  induction m with
  | nil => grind [Memory.insert, Memory.find?]
  | cons c m ih => grind [Memory.insert, Memory.find?]

/-- What memory reads as after a write, at every address (20 R53). -/
theorem Memory.read_write (m : Memory) (a b : Nat) (v : Byte) :
    Memory.read (Memory.write m a v) b = if b = a then v else Memory.read m b := by
  unfold Memory.read Memory.write
  split
  · grind [Memory.find?_erase]
  · rw [Memory.find?_insert _ _ _ _ (by simp [Memory.find?_erase]), Memory.find?_erase]
    grind

theorem Memory.read_write_same (m : Memory) (a : Nat) (v : Byte) :
    Memory.read (Memory.write m a v) a = v := by simp [Memory.read_write]

theorem Memory.read_write_other (m : Memory) {a b : Nat} (v : Byte) (h : b ≠ a) :
    Memory.read (Memory.write m a v) b = Memory.read m b := by simp [Memory.read_write, h]

@[simp] theorem Memory.read_nil (a : Nat) : Memory.read [] a = Memory.unlisted := rfl

/-- What memory reads as after a run of bytes is written from an address up. -/
theorem Memory.read_writeBytes (bs : List Byte) (m : Memory) (a b : Nat) :
    Memory.read (Memory.writeBytes m a bs) b =
      if a ≤ b ∧ b < a + bs.length ∧ b < 256 then bs[b - a]?.getD 0 else Memory.read m b := by
  induction bs generalizing m a with
  | nil => simp [Memory.writeBytes]; omega
  | cons v bs ih =>
    unfold Memory.writeBytes
    split
    · rw [ih, Memory.read_write]
      rcases Nat.lt_trichotomy b a with h | h | h
      · rw [if_neg (by omega), if_neg (by omega), if_neg (by omega)]
      · subst h
        rw [if_neg (by omega), if_pos rfl, if_pos (by simp; omega)]
        simp
      · obtain ⟨k, rfl⟩ : ∃ k, b = a + 1 + k := ⟨b - (a + 1), by omega⟩
        have h1 : a + 1 + k - a = k + 1 := by omega
        have h2 : a + 1 + k - (a + 1) = k := by omega
        rw [if_neg (show a + 1 + k ≠ a by omega), h1, h2, List.getElem?_cons_succ]
        have : (a + 1 ≤ a + 1 + k ∧ a + 1 + k < a + 1 + bs.length ∧ a + 1 + k < 256) ↔
            (a ≤ a + 1 + k ∧ a + 1 + k < a + (v :: bs).length ∧ a + 1 + k < 256) := by
          simp only [List.length_cons]; omega
        simp only [this]
    · rw [if_neg (by omega)]

/-! The canonical form -/

/-- The canonical form, cell by cell. -/
theorem Memory.wf_iff (m : Memory) :
    Memory.wf m = true ↔
      m.Pairwise (fun c d => c.1 < d.1) ∧ ∀ c ∈ m, c.1 < 256 ∧ c.2 ≠ Memory.unlisted := by
  induction m with
  | nil => simp [Memory.wf]
  | cons c m ih =>
    cases m with
    | nil => simp [Memory.wf]
    | cons d m =>
      rw [Memory.wf, Bool.and_eq_true, Bool.and_eq_true, ih]
      simp only [decide_eq_true_eq, List.pairwise_cons, List.mem_cons, forall_eq_or_imp]
      constructor
      · rintro ⟨⟨h1, h2⟩, ⟨h3, h4⟩, h5, h6⟩
        exact ⟨⟨⟨h1, fun e he => h1.trans (h3 e he)⟩, h3, h4⟩, ⟨by omega, h2⟩, h5, h6⟩
      · rintro ⟨⟨⟨h1, -⟩, h3, h4⟩, ⟨-, h2⟩, h5, h6⟩
        exact ⟨⟨h1, h2⟩, ⟨h3, h4⟩, h5, h6⟩

theorem Memory.mem_erase (m : Memory) (a : Nat) (c : Host.Cell) :
    c ∈ Memory.erase m a ↔ c ∈ m ∧ c.1 ≠ a := by simp [Memory.erase, List.mem_filter]

theorem Memory.mem_insert (m : Memory) (a : Nat) (v : Byte) (c : Host.Cell) :
    c ∈ Memory.insert m a v ↔ c = (a, v) ∨ c ∈ m := by
  induction m with
  | nil => simp [Memory.insert]
  | cons d m ih =>
    unfold Memory.insert
    split
    · simp
    · simp only [List.mem_cons, ih]; tauto

theorem Memory.wf_erase {m : Memory} (a : Nat) (h : Memory.wf m = true) :
    Memory.wf (Memory.erase m a) = true := by
  rw [Memory.wf_iff] at h ⊢
  exact ⟨h.1.filter _, fun c hc => h.2 c ((Memory.mem_erase m a c).1 hc).1⟩

theorem Memory.insert_rising (m : Memory) (a : Nat) (v : Byte)
    (h : m.Pairwise (fun c d => c.1 < d.1)) (ha : ∀ c ∈ m, c.1 ≠ a) :
    (Memory.insert m a v).Pairwise (fun c d => c.1 < d.1) := by
  induction m with
  | nil => simp [Memory.insert]
  | cons c m ih =>
    rw [List.pairwise_cons] at h
    unfold Memory.insert
    split
    next hlt =>
      refine List.pairwise_cons.2 ⟨fun d hd => ?_, List.pairwise_cons.2 h⟩
      rcases List.mem_cons.1 hd with rfl | hd
      · exact hlt
      · exact Nat.lt_trans hlt (h.1 d hd)
    next hge =>
      have hne := ha c (by simp)
      refine List.pairwise_cons.2 ⟨fun d hd => ?_, ih h.2 fun d hd => ha d (by simp [hd])⟩
      rcases (Memory.mem_insert m a v d).1 hd with rfl | hd
      · change c.1 < a
        omega
      · exact h.1 d hd

/-- A write to an address of the machine keeps the canonical form. -/
theorem Memory.wf_write {m : Memory} {a : Nat} (v : Byte) (h : Memory.wf m = true) (ha : a < 256) :
    Memory.wf (Memory.write m a v) = true := by
  unfold Memory.write
  split
  · exact Memory.wf_erase a h
  next hv =>
    have he := Memory.wf_erase a h
    rw [Memory.wf_iff] at he ⊢
    refine ⟨Memory.insert_rising _ _ _ he.1 fun c hc => ((Memory.mem_erase m a c).1 hc).2, fun c hc => ?_⟩
    rcases (Memory.mem_insert _ _ _ c).1 hc with rfl | hc
    · exact ⟨ha, hv⟩
    · exact he.2 c hc

theorem Memory.wf_writeBytes (bs : List Byte) {m : Memory} (a : Nat) (h : Memory.wf m = true) :
    Memory.wf (Memory.writeBytes m a bs) = true := by
  induction bs generalizing m a with
  | nil => exact h
  | cons v bs ih =>
    unfold Memory.writeBytes
    split
    next ha => exact ih _ (Memory.wf_write v h ha)
    · exact h

theorem State.reset_mem_wf : Memory.wf State.reset.mem = true := rfl

end Sys2Proof.Machine
end

