-- ==== Sys2Proof/Laws/State.lean ====
section
/-! SUPPORT. What each update of the state does to each field, so that no proof unfolds a record update. -/

namespace Sys2Proof.Machine

variable (s : State)

/-! `setReg` -/

@[simp] theorem State.setReg_mem (r : RegIndex) (v : Byte) : (s.setReg r v).mem = s.mem := rfl
@[simp] theorem State.setReg_x (r : RegIndex) (v : Byte) : (s.setReg r v).x = s.x.set r v := rfl
@[simp] theorem State.setReg_pc (r : RegIndex) (v : Byte) : (s.setReg r v).pc = s.pc := rfl
@[simp] theorem State.setReg_fl (r : RegIndex) (v : Byte) : (s.setReg r v).fl = s.fl := rfl
@[simp] theorem State.setReg_ir (r : RegIndex) (v : Byte) : (s.setReg r v).ir = s.ir := rfl
@[simp] theorem State.setReg_opA (r : RegIndex) (v : Byte) : (s.setReg r v).opA = s.opA := rfl
@[simp] theorem State.setReg_opB (r : RegIndex) (v : Byte) : (s.setReg r v).opB = s.opB := rfl
@[simp] theorem State.setReg_status (r : RegIndex) (v : Byte) : (s.setReg r v).status = s.status := rfl
@[simp] theorem State.setReg_out (r : RegIndex) (v : Byte) : (s.setReg r v).out = s.out := rfl
@[simp] theorem State.setReg_draws (r : RegIndex) (v : Byte) : (s.setReg r v).draws = s.draws := rfl

/-! `writeTop` -/

@[simp] theorem State.writeTop_mem (v : Byte) :
    (s.writeTop v).mem = Memory.write s.mem s.sp.toNat v := rfl
@[simp] theorem State.writeTop_x (v : Byte) : (s.writeTop v).x = s.x := rfl
@[simp] theorem State.writeTop_pc (v : Byte) : (s.writeTop v).pc = s.pc := rfl
@[simp] theorem State.writeTop_fl (v : Byte) : (s.writeTop v).fl = s.fl := rfl
@[simp] theorem State.writeTop_ir (v : Byte) : (s.writeTop v).ir = s.ir := rfl
@[simp] theorem State.writeTop_opA (v : Byte) : (s.writeTop v).opA = s.opA := rfl
@[simp] theorem State.writeTop_opB (v : Byte) : (s.writeTop v).opB = s.opB := rfl
@[simp] theorem State.writeTop_status (v : Byte) : (s.writeTop v).status = s.status := rfl
@[simp] theorem State.writeTop_out (v : Byte) : (s.writeTop v).out = s.out := rfl
@[simp] theorem State.writeTop_draws (v : Byte) : (s.writeTop v).draws = s.draws := rfl

/-! `emit` -/

@[simp] theorem State.emit_mem (v : Byte) : (s.emit v).mem = s.mem := rfl
@[simp] theorem State.emit_x (v : Byte) : (s.emit v).x = s.x := rfl
@[simp] theorem State.emit_pc (v : Byte) : (s.emit v).pc = s.pc := rfl
@[simp] theorem State.emit_fl (v : Byte) : (s.emit v).fl = s.fl := rfl
@[simp] theorem State.emit_ir (v : Byte) : (s.emit v).ir = s.ir := rfl
@[simp] theorem State.emit_opA (v : Byte) : (s.emit v).opA = s.opA := rfl
@[simp] theorem State.emit_opB (v : Byte) : (s.emit v).opB = s.opB := rfl
@[simp] theorem State.emit_status (v : Byte) : (s.emit v).status = s.status := rfl
@[simp] theorem State.emit_out (v : Byte) : (s.emit v).out = s.out ++ [v] := rfl
@[simp] theorem State.emit_draws (v : Byte) : (s.emit v).draws = s.draws := rfl

/-! `setFlags` -/

@[simp] theorem State.setFlags_mem (f : Flags) : (s.setFlags f).mem = s.mem := rfl
@[simp] theorem State.setFlags_x (f : Flags) : (s.setFlags f).x = s.x := rfl
@[simp] theorem State.setFlags_pc (f : Flags) : (s.setFlags f).pc = s.pc := rfl
@[simp] theorem State.setFlags_fl (f : Flags) : (s.setFlags f).fl = f := rfl
@[simp] theorem State.setFlags_ir (f : Flags) : (s.setFlags f).ir = s.ir := rfl
@[simp] theorem State.setFlags_opA (f : Flags) : (s.setFlags f).opA = s.opA := rfl
@[simp] theorem State.setFlags_opB (f : Flags) : (s.setFlags f).opB = s.opB := rfl
@[simp] theorem State.setFlags_status (f : Flags) : (s.setFlags f).status = s.status := rfl
@[simp] theorem State.setFlags_out (f : Flags) : (s.setFlags f).out = s.out := rfl
@[simp] theorem State.setFlags_draws (f : Flags) : (s.setFlags f).draws = s.draws := rfl

/-! `raise` -/

@[simp] theorem State.raise_mem (k : FaultKind) (d : Option Detail) : (s.raise k d).mem = s.mem := rfl
@[simp] theorem State.raise_x (k : FaultKind) (d : Option Detail) : (s.raise k d).x = s.x := rfl
@[simp] theorem State.raise_pc (k : FaultKind) (d : Option Detail) : (s.raise k d).pc = s.pc := rfl
@[simp] theorem State.raise_fl (k : FaultKind) (d : Option Detail) : (s.raise k d).fl = s.fl := rfl
@[simp] theorem State.raise_ir (k : FaultKind) (d : Option Detail) : (s.raise k d).ir = s.ir := rfl
@[simp] theorem State.raise_opA (k : FaultKind) (d : Option Detail) : (s.raise k d).opA = s.opA := rfl
@[simp] theorem State.raise_opB (k : FaultKind) (d : Option Detail) : (s.raise k d).opB = s.opB := rfl
@[simp] theorem State.raise_status (k : FaultKind) (d : Option Detail) :
    (s.raise k d).status = .fault ⟨k, s.pc, s.ir, d⟩ := rfl
@[simp] theorem State.raise_out (k : FaultKind) (d : Option Detail) : (s.raise k d).out = s.out := rfl
@[simp] theorem State.raise_draws (k : FaultKind) (d : Option Detail) : (s.raise k d).draws = s.draws := rfl

/-! `latch` -/

@[simp] theorem State.latch_mem (bs : List Byte) : (s.latch bs).mem = s.mem := rfl
@[simp] theorem State.latch_x (bs : List Byte) : (s.latch bs).x = s.x := rfl
@[simp] theorem State.latch_pc (bs : List Byte) : (s.latch bs).pc = s.pc := rfl
@[simp] theorem State.latch_fl (bs : List Byte) : (s.latch bs).fl = s.fl := rfl
@[simp] theorem State.latch_ir (bs : List Byte) : (s.latch bs).ir = s.opcodeAt := rfl
@[simp] theorem State.latch_status (bs : List Byte) : (s.latch bs).status = s.status := rfl
@[simp] theorem State.latch_out (bs : List Byte) : (s.latch bs).out = s.out := rfl
@[simp] theorem State.latch_opA (a : Byte) (bs : List Byte) : (s.latch (a :: bs)).opA = a := rfl
@[simp] theorem State.latch_opB (a b : Byte) (bs : List Byte) : (s.latch (a :: b :: bs)).opB = b := rfl

/-! The register file and the stack pointer -/

@[simp] theorem State.setSp_eq (v : Byte) : s.setSp v = s.setReg spReg v := rfl

theorem State.reg_setReg (r q : RegIndex) (v : Byte) :
    (s.setReg r v).reg q = if q = r then v else s.reg q := by
  simp only [State.reg, State.setReg, Fin.getElem_fin, Vector.getElem_set, Fin.ext_iff, eq_comm]

@[simp] theorem State.reg_setReg_self (r : RegIndex) (v : Byte) : (s.setReg r v).reg r = v := by
  simp [State.reg_setReg]

theorem State.sp_eq_reg : s.sp = s.reg 7 := rfl

@[simp] theorem State.reg_writeTop (r : RegIndex) (v : Byte) : (s.writeTop v).reg r = s.reg r := rfl

end Sys2Proof.Machine
end

