-- ==== Sys2Proof/Laws/Operations.lean ====
section
/-! SUPPORT. One lemma for each shared operation that says everything it can do: the operand check, the advance, the end
of a step, the dispatch decoder and the fetch unit. -/

namespace Sys2Proof.Machine

/-! The operand check -/

theorem regByte_toNat (r : RegIndex) : (regByte r).toNat = r.val := by
  simp [regByte, BitVec.toNat_ofNat]
  omega

@[simp] theorem regOperand_regByte (r : RegIndex) : regOperand (regByte r) = some r := by
  simp [regOperand, regByte_toNat, r.isLt]

theorem regOperand_eq_some {a : Byte} {r : RegIndex} : regOperand a = some r ↔ a = regByte r := by
  constructor
  · intro h
    unfold regOperand at h
    split at h
    · cases h
      exact BitVec.eq_of_toNat_eq (by rw [regByte_toNat])
    · cases h
  · rintro rfl
    exact regOperand_regByte r

theorem regOperand_eq_none {a : Byte} : regOperand a = none ↔ 7 < a.toNat := by
  unfold regOperand
  split <;> simp <;> omega

/-- What the operand check can answer: the handler on the register named, or BadRegister. -/
theorem State.withReg_cases (s : State) (a : Byte) (f : RegIndex → State) :
    (∃ r, a = regByte r ∧ s.withReg a f = f r) ∨
      (7 < a.toNat ∧ s.withReg a f = s.raise .badRegister (some (byteDetail a))) := by
  unfold State.withReg
  cases h : regOperand a with
  | some r => exact .inl ⟨r, regOperand_eq_some.1 h, rfl⟩
  | none => exact .inr ⟨regOperand_eq_none.1 h, rfl⟩

@[simp] theorem State.withReg_regByte (s : State) (r : RegIndex) (f : RegIndex → State) :
    s.withReg (regByte r) f = f r := by simp [State.withReg]

theorem State.withReg_bad (s : State) {a : Byte} (h : 7 < a.toNat) (f : RegIndex → State) :
    s.withReg a f = s.raise .badRegister (some (byteDetail a)) := by
  simp [State.withReg, regOperand_eq_none.2 h]

/-! The advance and the end of a step -/

/-- What the implicit advance can do: move the pc, or fault at the top of memory. -/
theorem State.advance_cases (s : State) (n : Nat) :
    (s.pc.toNat + 1 + n ≤ 255 ∧ s.advance n = { s with pc := BitVec.ofNat 8 (s.pc.toNat + 1 + n) }) ∨
      (255 < s.pc.toNat + 1 + n ∧
        s.advance n = s.raise .addressOutOfRange (some (addressDetail (s.pc.toNat + 1 + n)))) := by
  unfold State.advance
  split
  next h => exact .inr ⟨h, rfl⟩
  next h => exact .inl ⟨by omega, rfl⟩

theorem State.advance_inRange (s : State) {n : Nat} (h : s.pc.toNat + 1 + n ≤ 255) :
    s.advance n = { s with pc := BitVec.ofNat 8 (s.pc.toNat + 1 + n) } := by
  unfold State.advance
  rw [if_neg (by omega)]

theorem State.advance_past (s : State) {n : Nat} (h : 255 < s.pc.toNat + 1 + n) :
    s.advance n = s.raise .addressOutOfRange (some (addressDetail (s.pc.toNat + 1 + n))) := by
  unfold State.advance
  rw [if_pos h]

@[simp] theorem State.finish_raises (s : State) (n : Nat) (k : FaultKind) (d : Detail) :
    s.finish n (.raises k d) = s.raise k (some d) := rfl
@[simp] theorem State.finish_advance (s t : State) (n : Nat) :
    s.finish n (.done t .implicitAdvance) = t.advance n := rfl
@[simp] theorem State.finish_jump (s t : State) (n : Nat) (a : Byte) :
    s.finish n (.done t (.jump a)) = { t with pc := a } := rfl
@[simp] theorem State.finish_halt (s t : State) (n : Nat) :
    s.finish n (.done t .halt) = { t with status := .halted } := rfl

/-! The dispatch decoder -/

theorem Mnemonic.mem_all (h : Mnemonic) : h ∈ Mnemonic.all := by cases h <;> decide

/-- The dispatch decoder of a valid opcode map selects a row exactly on that row's byte. -/
theorem dispatchWith_eq_some {m : OpcodeMap} (hm : m.Valid) {op : Byte} {h : Mnemonic} :
    dispatchWith m op = some h ↔ m h = op := by
  unfold dispatchWith
  constructor
  · intro hd
    split at hd
    · cases hd
    · simpa using List.find?_some hd
  · rintro rfl
    have hc : operandCount (m h) ≠ 3 := by rw [hm.2 h]; cases h <;> decide
    rw [if_neg hc]
    cases hf : Mnemonic.all.find? (fun k => m k == m h) with
    | none => simpa using List.find?_eq_none.1 hf h (Mnemonic.mem_all h)
    | some k => rw [hm.1 k h (by simpa using List.find?_some hf)]

theorem opcodeMap_valid : OpcodeMap.Valid Config.opcodeMap := by
  refine ⟨fun h k => ?_, fun h => ?_⟩
  · cases h <;> cases k <;> decide
  · cases h <;> rfl

theorem dispatch_eq_some {op : Byte} {h : Mnemonic} : dispatch op = some h ↔ Config.opcodeMap h = op :=
  dispatchWith_eq_some opcodeMap_valid

theorem dispatchWith_eq_none {m : OpcodeMap} (hm : m.Valid) {op : Byte} :
    dispatchWith m op = none ↔ ∀ h, m h ≠ op := by
  simp [Option.eq_none_iff_forall_ne_some, dispatchWith_eq_some hm]

theorem dispatch_eq_none {op : Byte} : dispatch op = none ↔ ∀ h, Config.opcodeMap h ≠ op := by
  simp [Option.eq_none_iff_forall_ne_some, dispatch_eq_some]

theorem operandCount_opcodeMap (h : Mnemonic) :
    operandCount (Config.opcodeMap h) = h.format.operandCount := opcodeMap_valid.2 h

theorem operandCount_eq (op : Byte) : operandCount op = op.toNat / 64 := by
  simp [operandCount, BitVec.toNat_ushiftRight, Nat.shiftRight_eq_div_pow]

/-! The fetch unit -/

theorem State.byteAfter_of_le {s : State} {k : Nat} (h : s.pc.toNat + k ≤ 255) :
    s.byteAfter k = some (Memory.read s.mem (s.pc.toNat + k)) := by simp [State.byteAfter, h]

theorem State.byteAfter_of_gt {s : State} {k : Nat} (h : 255 < s.pc.toNat + k) : s.byteAfter k = none := by
  simp [State.byteAfter]; omega

/-- Everything a fetch can do, for any valid opcode map: a decode fault, an operand-fetch fault on the first or second operand byte, or an
instruction of zero, one or two operand bytes with its latches filled. -/
theorem State.fetchWith_cases {m : OpcodeMap} (hm : m.Valid) (s : State) :
    ((∀ h, m h ≠ s.opcodeAt) ∧ s.fetchWith m = .stop s.decodeFault) ∨
    ∃ h, m h = s.opcodeAt ∧
      ((h.format.operandCount = 0 ∧ s.fetchWith m = .run (h.instr 0 0) (s.latch [])) ∨
       (0 < h.format.operandCount ∧ 255 < s.pc.toNat + 1 ∧
        s.fetchWith m = .stop ((s.latch []).raise .addressOutOfRange (some (addressDetail (s.pc.toNat + 1))))) ∨
       (h.format.operandCount = 1 ∧ s.pc.toNat + 1 ≤ 255 ∧
        s.fetchWith m = .run (h.instr (Memory.read s.mem (s.pc.toNat + 1)) 0)
          (s.latch [Memory.read s.mem (s.pc.toNat + 1)])) ∨
       (h.format.operandCount = 2 ∧ s.pc.toNat + 1 ≤ 255 ∧ 255 < s.pc.toNat + 2 ∧
        s.fetchWith m = .stop ((s.latch [Memory.read s.mem (s.pc.toNat + 1)]).raise .addressOutOfRange
          (some (addressDetail (s.pc.toNat + 2))))) ∨
       (h.format.operandCount = 2 ∧ s.pc.toNat + 2 ≤ 255 ∧
        s.fetchWith m = .run (h.instr (Memory.read s.mem (s.pc.toNat + 1)) (Memory.read s.mem (s.pc.toNat + 2)))
          (s.latch [Memory.read s.mem (s.pc.toNat + 1), Memory.read s.mem (s.pc.toNat + 2)]))) := by
  have hdec : ∀ bs, decodeWith m (s.opcodeAt :: bs) = decodeOpcodeWith m s.opcodeAt bs := fun _ => rfl
  cases hd : dispatchWith m s.opcodeAt with
  | none =>
    refine .inl ⟨(dispatchWith_eq_none hm).1 hd, ?_⟩
    have hd' : dispatchWith m s.opcodeAt = none := hd
    simp only [State.fetchWith, hdec, decodeOpcodeWith, hd']
  | some h =>
    refine .inr ⟨h, (dispatchWith_eq_some hm).1 hd, ?_⟩
    have hd' : dispatchWith m s.opcodeAt = some h := hd
    have hop := (dispatchWith_eq_some hm).1 hd
    have hn : operandCount s.opcodeAt = h.format.operandCount := by
      rw [← hop]; exact hm.2 h
    have hle : h.format.operandCount = 0 ∨ h.format.operandCount = 1 ∨ h.format.operandCount = 2 := by
      cases h <;> decide
    rcases hle with h0 | h1 | h2
    · refine .inl ⟨h0, ?_⟩
      have ho : s.operandsAt = [] := by simp [State.operandsAt, hn, h0, List.reduceOption]
      simp only [State.fetchWith, hdec, decodeOpcodeWith, hd', hn, h0, ho]
    · by_cases hp : s.pc.toNat + 1 ≤ 255
      · have ho : s.operandsAt = [Memory.read s.mem (s.pc.toNat + 1)] := by
          simp [State.operandsAt, hn, h1, List.range_succ, List.reduceOption, State.byteAfter_of_le hp]
        refine .inr (.inr (.inl ⟨h1, hp, ?_⟩))
        simp only [State.fetchWith, hdec, decodeOpcodeWith, hd', hn, h1, ho]
      · have ho : s.operandsAt = [] := by
          simp [State.operandsAt, hn, h1, List.range_succ, List.reduceOption,
            State.byteAfter_of_gt (s := s) (k := 1) (by omega)]
        refine .inr (.inl ⟨by omega, by omega, ?_⟩)
        simp only [State.fetchWith, hdec, decodeOpcodeWith, hd', hn, h1, ho]
    · by_cases hp : s.pc.toNat + 2 ≤ 255
      · have ho : s.operandsAt =
            [Memory.read s.mem (s.pc.toNat + 1), Memory.read s.mem (s.pc.toNat + 2)] := by
          simp [State.operandsAt, hn, h2, List.range_succ, List.reduceOption,
            State.byteAfter_of_le (s := s) (k := 1) (by omega), State.byteAfter_of_le hp]
        refine .inr (.inr (.inr (.inr ⟨h2, hp, ?_⟩)))
        simp only [State.fetchWith, hdec, decodeOpcodeWith, hd', hn, h2, ho]
      · by_cases hq : s.pc.toNat + 1 ≤ 255
        · have ho : s.operandsAt = [Memory.read s.mem (s.pc.toNat + 1)] := by
            simp [State.operandsAt, hn, h2, List.range_succ, List.reduceOption,
              State.byteAfter_of_le hq, State.byteAfter_of_gt (s := s) (k := 2) (by omega)]
          refine .inr (.inr (.inr (.inl ⟨h2, hq, by omega, ?_⟩)))
          simp only [State.fetchWith, hdec, decodeOpcodeWith, hd', hn, h2, ho]
        · have ho : s.operandsAt = [] := by
            simp [State.operandsAt, hn, h2, List.range_succ, List.reduceOption,
              State.byteAfter_of_gt (s := s) (k := 1) (by omega),
              State.byteAfter_of_gt (s := s) (k := 2) (by omega)]
          refine .inr (.inl ⟨by omega, by omega, ?_⟩)
          simp only [State.fetchWith, hdec, decodeOpcodeWith, hd', hn, h2, ho]

/-- What a fetch can do under the default opcode map. -/
theorem State.fetch_cases (s : State) :
    ((∀ h, Config.opcodeMap h ≠ s.opcodeAt) ∧ s.fetch = .stop s.decodeFault) ∨
    ∃ h, Config.opcodeMap h = s.opcodeAt ∧
      ((h.format.operandCount = 0 ∧ s.fetch = .run (h.instr 0 0) (s.latch [])) ∨
       (0 < h.format.operandCount ∧ 255 < s.pc.toNat + 1 ∧
        s.fetch = .stop ((s.latch []).raise .addressOutOfRange (some (addressDetail (s.pc.toNat + 1))))) ∨
       (h.format.operandCount = 1 ∧ s.pc.toNat + 1 ≤ 255 ∧
        s.fetch = .run (h.instr (Memory.read s.mem (s.pc.toNat + 1)) 0)
          (s.latch [Memory.read s.mem (s.pc.toNat + 1)])) ∨
       (h.format.operandCount = 2 ∧ s.pc.toNat + 1 ≤ 255 ∧ 255 < s.pc.toNat + 2 ∧
        s.fetch = .stop ((s.latch [Memory.read s.mem (s.pc.toNat + 1)]).raise .addressOutOfRange
          (some (addressDetail (s.pc.toNat + 2))))) ∨
       (h.format.operandCount = 2 ∧ s.pc.toNat + 2 ≤ 255 ∧
        s.fetch = .run (h.instr (Memory.read s.mem (s.pc.toNat + 1)) (Memory.read s.mem (s.pc.toNat + 2)))
          (s.latch [Memory.read s.mem (s.pc.toNat + 1), Memory.read s.mem (s.pc.toNat + 2)]))) :=
  s.fetchWith_cases opcodeMap_valid

/-! The step -/

theorem stepWith_running {m : OpcodeMap} {run : Instr → State → Host.Outcome State Fault Refusal} {s : State}
    (h : s.status = .running) :
    stepWith m run s = match s.fetchWith m with
      | .run i t => run i t
      | .stop t => .next t := by
  unfold stepWith
  exact if_pos h

theorem stepWith_notRunning {m : OpcodeMap} {run : Instr → State → Host.Outcome State Fault Refusal} {s : State}
    (h : s.status ≠ .running) : stepWith m run s = .next s := by
  unfold stepWith
  exact if_neg h

theorem step_running {s : State} (h : s.status = .running) :
    step s = match s.fetch with
      | .run i t => exec i t
      | .stop t => .next t := stepWith_running h

theorem step_notRunning {s : State} (h : s.status ≠ .running) : step s = .next s := stepWith_notRunning h

end Sys2Proof.Machine
end

