-- ==== Sys2Proof/Laws/Exec.lean ====
section
/-! SUPPORT. One lemma for each handler that says everything it can answer, and the inversion of `exec`: what the state
after an instruction can be. -/

namespace Sys2Proof.Machine

/-! The fields after the advance -/

@[simp] theorem State.advance_x (s : State) (n : Nat) : (s.advance n).x = s.x := by
  unfold State.advance; split <;> rfl
@[simp] theorem State.advance_mem (s : State) (n : Nat) : (s.advance n).mem = s.mem := by
  unfold State.advance; split <;> rfl
@[simp] theorem State.advance_fl (s : State) (n : Nat) : (s.advance n).fl = s.fl := by
  unfold State.advance; split <;> rfl
@[simp] theorem State.advance_out (s : State) (n : Nat) : (s.advance n).out = s.out := by
  unfold State.advance; split <;> rfl
@[simp] theorem State.advance_ir (s : State) (n : Nat) : (s.advance n).ir = s.ir := by
  unfold State.advance; split <;> rfl
@[simp] theorem State.advance_opA (s : State) (n : Nat) : (s.advance n).opA = s.opA := by
  unfold State.advance; split <;> rfl
@[simp] theorem State.advance_opB (s : State) (n : Nat) : (s.advance n).opB = s.opB := by
  unfold State.advance; split <;> rfl
@[simp] theorem State.advance_draws (s : State) (n : Nat) : (s.advance n).draws = s.draws := by
  unfold State.advance; split <;> rfl

/-- The status and the pc after the advance. -/
theorem State.advance_status (s : State) (n : Nat) :
    ((s.advance n).status = s.status ∧ (s.advance n).pc = BitVec.ofNat 8 (s.pc.toNat + 1 + n) ∧
        s.pc.toNat + 1 + n ≤ 255) ∨
      (s.advance n).status =
          .fault ⟨.addressOutOfRange, s.pc, s.ir, some (addressDetail (s.pc.toNat + 1 + n))⟩ ∧
        (s.advance n).pc = s.pc ∧ 255 < s.pc.toNat + 1 + n := by
  rcases s.advance_cases n with ⟨h, h'⟩ | ⟨h, h'⟩ <;> rw [h'] <;> simp [h]

/-! The handlers of the stack (43 R171, R172, 44 R181, R182) -/

theorem State.spDec_toNat {s : State} (h : s.x[7] ≠ 0) : s.spDec.toNat = s.x[7].toNat - 1 := by
  have h0 : s.x[7].toNat ≠ 0 := fun h' => h (BitVec.eq_of_toNat_eq (by simpa using h'))
  have hd : s.spDec.toNat = (s.x[7] - 1).toNat := rfl
  rw [hd, BitVec.toNat_sub]
  have := s.x[7].isLt
  simp; omega

theorem State.spAtBottom_iff {s : State} : s.spAtBottom = true ↔ s.x[7] = 0 := by
  simp [State.spAtBottom, State.sp, State.reg, spReg]

theorem State.spEmpty_iff {s : State} {empty : Byte} :
    s.spEmpty empty = true ↔ empty.toNat ≤ s.x[7].toNat := by
  simp [State.spEmpty, State.sp, State.reg, spReg]

@[simp] theorem Config.stackEmpty_toNat : Config.stackEmpty.toNat = 0xF4 := rfl

theorem handlePush_overflow (r : RegIndex) {s : State} (h : s.x[7] = 0) :
    handlePush r s = .raises .stackOverflow 0 := by
  have h' : s.sp = 0 := h
  simp [handlePush, State.spAtBottom, h', byteDetail]

theorem handlePush_done (r : RegIndex) {s : State} (h : s.x[7] ≠ 0) :
    handlePush r s = .done { s with
      x := s.x.set 7 (s.x[7] - 1)
      mem := Memory.write s.mem (s.x[7].toNat - 1) (if r = 7 then s.x[7] - 1 else s.x[r]) } .implicitAdvance := by
  have hb : s.spAtBottom = false := by simpa using mt State.spAtBottom_iff.1 h
  simp only [handlePush, hb, Bool.false_eq_true, ↓reduceIte, State.setSp_eq]
  congr 1
  simp only [State.writeTop]
  congr 1
  have hs : (s.setReg spReg s.spDec).sp = s.spDec := State.reg_setReg_self ..
  rw [hs, State.spDec_toNat h, State.reg_setReg]
  rfl

theorem handlePop_underflow {empty : Byte} (r : RegIndex) {s : State} (h : empty.toNat ≤ s.x[7].toNat) :
    handlePop empty r s = .raises .stackUnderflow (byteDetail s.x[7]) := by
  simp only [handlePop, State.spEmpty_iff.2 h, ↓reduceIte]; rfl

theorem handlePop_done {empty : Byte} (r : RegIndex) {s : State} (h : s.x[7].toNat < empty.toNat) :
    handlePop empty r s = .done { s with
      x := if r = 7 then s.x.set 7 (Memory.read s.mem s.x[7].toNat + 1)
        else (s.x.set r (Memory.read s.mem s.x[7].toNat)).set 7 (s.x[7] + 1) } .implicitAdvance := by
  have hb : s.spEmpty empty = false := by simpa using mt State.spEmpty_iff.1 (by omega)
  simp only [handlePop, hb, Bool.false_eq_true, ↓reduceIte, State.setSp_eq]
  congr 1
  simp only [State.setReg]
  congr 1
  split
  next h7 =>
    subst h7
    simp [State.spInc, State.sp, State.reg, spReg, State.readTop]
  next h7 =>
    have hx : s.x.set r s.readTop = s.x.set r (Memory.read s.mem s.x[7].toNat) := rfl
    simp only [State.spInc, State.sp, State.reg, spReg, hx]
    have h7' : (r : Nat) ≠ 7 := fun h => h7 (Fin.ext h)
    simp [h7']

theorem handleCall_outOfRange (r : RegIndex) {s : State} (h : 254 ≤ s.pc.toNat) :
    handleCall r s = .raises .addressOutOfRange (addressDetail (s.pc.toNat + 2)) := by
  have hr : 255 < s.returnAddress := by simp [State.returnAddress]; omega
  simp only [handleCall, hr, ↓reduceIte]
  rfl

theorem handleCall_overflow (r : RegIndex) {s : State} (hp : s.pc.toNat ≤ 253) (h : s.x[7] = 0) :
    handleCall r s = .raises .stackOverflow 0 := by
  have h' : s.sp = 0 := h
  have hr : ¬ 255 < s.returnAddress := by simp [State.returnAddress]; omega
  simp [handleCall, State.spAtBottom, h', byteDetail, hr]

theorem handleCall_done (r : RegIndex) {s : State} (hp : s.pc.toNat ≤ 253) (h : s.x[7] ≠ 0) :
    handleCall r s = .done { s with
      x := s.x.set 7 (s.x[7] - 1)
      mem := Memory.write s.mem (s.x[7].toNat - 1) (s.pc + 2) } (.jump (if r = 7 then s.x[7] - 1 else s.x[r])) := by
  have hb : s.spAtBottom = false := by simpa using mt State.spAtBottom_iff.1 h
  have hr : ¬ 255 < s.returnAddress := by simp [State.returnAddress]; omega
  simp only [handleCall, hb, hr, Bool.false_eq_true, ↓reduceIte, State.setSp_eq, State.reg_writeTop,
    State.reg_setReg]
  have hs : (s.setReg spReg s.spDec).sp = s.spDec := State.reg_setReg_self ..
  have hret : BitVec.ofNat 8 s.returnAddress = s.pc + 2 :=
    BitVec.eq_of_toNat_eq (by simp [State.returnAddress])
  simp only [State.writeTop, hs, State.spDec_toNat h, hret]
  rfl

theorem handleRet_underflow {empty : Byte} {s : State} (h : empty.toNat ≤ s.x[7].toNat) :
    handleRet empty s = .raises .stackUnderflow (byteDetail s.x[7]) := by
  simp only [handleRet, State.spEmpty_iff.2 h, ↓reduceIte]; rfl

theorem handleRet_done {empty : Byte} {s : State} (h : s.x[7].toNat < empty.toNat) :
    handleRet empty s = .done { s with x := s.x.set 7 (s.x[7] + 1) } (.jump (Memory.read s.mem s.x[7].toNat)) := by
  have hb : s.spEmpty empty = false := by simpa using mt State.spEmpty_iff.1 (by omega)
  simp only [handleRet, hb, Bool.false_eq_true, ↓reduceIte, State.setSp_eq]
  rfl

/-- The comparison, as 42 R153 writes it. -/
theorem aluCompare_eq (a b : Byte) :
    aluCompare a b = if a = b then ⟨true, false, false⟩
      else if a.toNat < b.toNat then ⟨false, false, true⟩ else ⟨false, true, false⟩ := by
  unfold aluCompare
  split
  · simp_all
  · have : a.toNat ≠ b.toNat := fun h => by simp_all [BitVec.eq_of_toNat_eq h]
    split <;> simp <;> omega

/-! The inversion of `exec` -/

/-- Everything the state after an instruction can be, by instruction, for any `STACK_EMPTY`: the effect it completes with, or the fault it
raises. -/
inductive ExecAnswer (empty : Byte) (s : State) : Instr → State → Prop
  | badRegister (i : Instr) (a : Byte) (h : i.regOperands.find? (fun r => decide (7 < r.toNat)) = some a) :
      ExecAnswer empty s i (s.raise .badRegister (some (byteDetail a)))
  | hlt : ExecAnswer empty s .hlt { s with status := .halted }
  | ldi (r : RegIndex) (v : Byte) : ExecAnswer empty s (.ldi (regByte r) v) ((s.setReg r v).advance 2)
  | prn (r : RegIndex) : ExecAnswer empty s (.prn (regByte r)) ((s.emit (s.reg r)).advance 1)
  | mul (r q : RegIndex) :
      ExecAnswer empty s (.mul (regByte r) (regByte q)) ((s.setReg r (aluMul (s.reg r) (s.reg q))).advance 2)
  | add (r q : RegIndex) :
      ExecAnswer empty s (.add (regByte r) (regByte q)) ((s.setReg r (aluAdd (s.reg r) (s.reg q))).advance 2)
  | cmp (r q : RegIndex) :
      ExecAnswer empty s (.cmp (regByte r) (regByte q)) ((s.setFlags (aluCompare (s.reg r) (s.reg q))).advance 2)
  | pushOverflow (r : RegIndex) (h : s.x[7] = 0) :
      ExecAnswer empty s (.push (regByte r)) (s.raise .stackOverflow (some 0))
  | push (r : RegIndex) (h : s.x[7] ≠ 0) : ExecAnswer empty s (.push (regByte r)) (State.advance { s with
      x := s.x.set 7 (s.x[7] - 1)
      mem := Memory.write s.mem (s.x[7].toNat - 1) (if r = 7 then s.x[7] - 1 else s.x[r]) } 1)
  | popUnderflow (r : RegIndex) (h : empty.toNat ≤ s.x[7].toNat) :
      ExecAnswer empty s (.pop (regByte r)) (s.raise .stackUnderflow (some (byteDetail s.x[7])))
  | pop (r : RegIndex) (h : s.x[7].toNat < empty.toNat) : ExecAnswer empty s (.pop (regByte r)) (State.advance { s with
      x := if r = 7 then s.x.set 7 (Memory.read s.mem s.x[7].toNat + 1)
        else (s.x.set r (Memory.read s.mem s.x[7].toNat)).set 7 (s.x[7] + 1) } 1)
  | callOutOfRange (r : RegIndex) (h : 254 ≤ s.pc.toNat) :
      ExecAnswer empty s (.call (regByte r)) (s.raise .addressOutOfRange (some (addressDetail (s.pc.toNat + 2))))
  | callOverflow (r : RegIndex) (hp : s.pc.toNat ≤ 253) (h : s.x[7] = 0) :
      ExecAnswer empty s (.call (regByte r)) (s.raise .stackOverflow (some 0))
  | call (r : RegIndex) (hp : s.pc.toNat ≤ 253) (h : s.x[7] ≠ 0) : ExecAnswer empty s (.call (regByte r)) { s with
      x := s.x.set 7 (s.x[7] - 1)
      mem := Memory.write s.mem (s.x[7].toNat - 1) (s.pc + 2)
      pc := if r = 7 then s.x[7] - 1 else s.x[r] }
  | retUnderflow (h : empty.toNat ≤ s.x[7].toNat) :
      ExecAnswer empty s .ret (s.raise .stackUnderflow (some (byteDetail s.x[7])))
  | ret (h : s.x[7].toNat < empty.toNat) :
      ExecAnswer empty s .ret { s with x := s.x.set 7 (s.x[7] + 1), pc := Memory.read s.mem s.x[7].toNat }
  | jmp (r : RegIndex) : ExecAnswer empty s (.jmp (regByte r)) { s with pc := s.x[r] }
  | jeqTaken (r : RegIndex) (h : s.fl.e = true) : ExecAnswer empty s (.jeq (regByte r)) { s with pc := s.x[r] }
  | jeqNotTaken (r : RegIndex) (h : s.fl.e = false) : ExecAnswer empty s (.jeq (regByte r)) (s.advance 1)
  | jneTaken (r : RegIndex) (h : s.fl.e = false) : ExecAnswer empty s (.jne (regByte r)) { s with pc := s.x[r] }
  | jneNotTaken (r : RegIndex) (h : s.fl.e = true) : ExecAnswer empty s (.jne (regByte r)) (s.advance 1)

theorem find?_bad_first {a : Byte} (h : 7 < a.toNat) (l : List Byte) :
    (a :: l).find? (fun r => decide (7 < r.toNat)) = some a := by simp [h]

theorem find?_bad_second (r : RegIndex) {b : Byte} (h : 7 < b.toNat) :
    [regByte r, b].find? (fun r => decide (7 < r.toNat)) = some b := by
  have : ¬ 7 < (regByte r).toNat := by rw [regByte_toNat]; omega
  simp [h, this]

/-- One register operand: the answer of the handler or of BadRegister. -/
theorem execAnswer_withReg {empty : Byte} {s : State} {i : Instr} {a : Byte} {f : RegIndex → State}
    (hi : i.regOperands.head? = some a) (hf : ∀ r, a = regByte r → ExecAnswer empty s i (f r)) :
    ExecAnswer empty s i (s.withReg a f) := by
  rcases s.withReg_cases a f with ⟨r, hr, h⟩ | ⟨hb, h⟩ <;> rw [h]
  · exact hf r hr
  · refine .badRegister i a ?_
    cases hl : i.regOperands with
    | nil => simp [hl] at hi
    | cons b l =>
      obtain rfl : b = a := by simpa [hl] using hi
      exact find?_bad_first hb l

/-- Two register operands: the answer of the handler or of BadRegister, A before B. -/
theorem execAnswer_withReg2 {empty : Byte} {s : State} {i : Instr} {a b : Byte} {f : RegIndex → RegIndex → State}
    (hi : i.regOperands = [a, b]) (hf : ∀ r q, a = regByte r → b = regByte q → ExecAnswer empty s i (f r q)) :
    ExecAnswer empty s i (s.withReg a fun r => s.withReg b (f r)) := by
  refine execAnswer_withReg (by rw [hi]; rfl) fun r hr => ?_
  subst hr
  rcases s.withReg_cases b (f r) with ⟨q, hq, h⟩ | ⟨hb, h⟩ <;> rw [h]
  · exact hf r q rfl hq
  · exact .badRegister i b (by rw [hi]; exact find?_bad_second r hb)

/-- Every instruction answers a next state, one of `ExecAnswer`, for any parameters. -/
theorem execFor_answer (p : Params) (i : Instr) (s : State) :
    ∃ t, execFor p i s = .next t ∧ ExecAnswer p.stackEmpty s i t := by
  cases i with
  | hlt => exact ⟨_, rfl, .hlt⟩
  | ldi a v => exact ⟨_, rfl, execAnswer_withReg rfl fun r h => h ▸ .ldi r v⟩
  | prn a => exact ⟨_, rfl, execAnswer_withReg rfl fun r h => h ▸ .prn r⟩
  | mul a b => exact ⟨_, rfl, execAnswer_withReg2 rfl fun r q h h' => h ▸ h' ▸ .mul r q⟩
  | add a b => exact ⟨_, rfl, execAnswer_withReg2 rfl fun r q h h' => h ▸ h' ▸ .add r q⟩
  | cmp a b => exact ⟨_, rfl, execAnswer_withReg2 rfl fun r q h h' => h ▸ h' ▸ .cmp r q⟩
  | push a =>
    refine ⟨_, rfl, execAnswer_withReg rfl fun r h => ?_⟩
    subst h
    by_cases hx : s.x[7] = 0
    · rw [handlePush_overflow r hx]; exact .pushOverflow r hx
    · rw [handlePush_done r hx]; exact .push r hx
  | pop a =>
    refine ⟨_, rfl, execAnswer_withReg rfl fun r h => ?_⟩
    subst h
    by_cases hx : s.x[7].toNat < p.stackEmpty.toNat
    · rw [handlePop_done r hx]; exact .pop r hx
    · rw [handlePop_underflow r (by omega)]; exact .popUnderflow r (by omega)
  | call a =>
    refine ⟨_, rfl, execAnswer_withReg rfl fun r h => ?_⟩
    subst h
    by_cases hp : s.pc.toNat ≤ 253
    · by_cases hx : s.x[7] = 0
      · rw [handleCall_overflow r hp hx]; exact .callOverflow r hp hx
      · rw [handleCall_done r hp hx]; exact .call r hp hx
    · rw [handleCall_outOfRange r (by omega)]; exact .callOutOfRange r (by omega)
  | ret =>
    refine ⟨_, rfl, ?_⟩
    by_cases hx : s.x[7].toNat < p.stackEmpty.toNat
    · rw [handleRet_done hx]; exact .ret hx
    · rw [handleRet_underflow (by omega)]; exact .retUnderflow (by omega)
  | jmp a => exact ⟨_, rfl, execAnswer_withReg rfl fun r h => h ▸ .jmp r⟩
  | jeq a =>
    refine ⟨_, rfl, execAnswer_withReg rfl fun r h => ?_⟩
    subst h
    cases he : s.fl.e
    · exact .jeqNotTaken r he
    · exact .jeqTaken r he
  | jne a =>
    refine ⟨_, rfl, execAnswer_withReg rfl fun r h => ?_⟩
    subst h
    cases he : s.fl.e
    · exact .jneTaken r he
    · exact .jneNotTaken r he

/-- The core of `exec` is the core at the default parameters. -/
theorem exec_eq_execFor (i : Instr) (s : State) : exec i s = execFor Config.params i s := by cases i <;> rfl

theorem exec_answer (i : Instr) (s : State) :
    ∃ t, exec i s = .next t ∧ ExecAnswer Config.stackEmpty s i t := by
  rw [exec_eq_execFor]
  exact execFor_answer Config.params i s

/-- The inversion: the state after an instruction is one of `ExecAnswer`. -/
theorem execFor_cases {p : Params} {i : Instr} {s t : State} (h : execFor p i s = .next t) :
    ExecAnswer p.stackEmpty s i t := by
  obtain ⟨u, hu, ha⟩ := execFor_answer p i s
  rw [hu] at h
  cases h
  exact ha

theorem exec_cases {i : Instr} {s t : State} (h : exec i s = .next t) : ExecAnswer Config.stackEmpty s i t := by
  rw [exec_eq_execFor] at h
  exact execFor_cases h

/-- To relate what an instruction with a register operand does in two states, relate the fault and the handlers. -/
theorem State.withReg_rel {s s' : State} (R : State → State → Prop) {a : Byte} {f f' : RegIndex → State}
    (hr : ∀ k d, R (s.raise k d) (s'.raise k d)) (hf : ∀ r, a = regByte r → R (f r) (f' r)) :
    R (s.withReg a f) (s'.withReg a f') := by
  rcases s.withReg_cases a f with ⟨r, rfl, e⟩ | ⟨hb, e⟩
  · rw [State.withReg_regByte, State.withReg_regByte]; exact hf r rfl
  · rw [State.withReg_bad _ hb, State.withReg_bad _ hb]; exact hr _ _

end Sys2Proof.Machine
end

