-- ==== Sys2Proof/Laws/PerInstr.lean ====
section
/-! SUPPORT. Per-instruction laws about the syntax: an instruction carries the operand bytes its format has, and its
register operands are among them (30 R73, R76). -/

namespace Sys2Proof.Laws.Operands

/-- The operand bytes are as many as the row's format has, and every register operand is one of them. -/
def Statement (i : Instr) : Prop :=
  i.operandBytes.length = i.mnemonic.format.operandCount ∧ i.regOperands ⊆ i.operandBytes

theorem hlt : Statement .hlt := ⟨rfl, List.Subset.refl _⟩
theorem ldi (a imm : Byte) : Statement (.ldi a imm) := ⟨rfl, fun _ h => by simp_all [Instr.regOperands, Instr.operandBytes]⟩
theorem prn (a : Byte) : Statement (.prn a) := ⟨rfl, List.Subset.refl _⟩
theorem mul (a b : Byte) : Statement (.mul a b) := ⟨rfl, List.Subset.refl _⟩
theorem add (a b : Byte) : Statement (.add a b) := ⟨rfl, List.Subset.refl _⟩
theorem push (a : Byte) : Statement (.push a) := ⟨rfl, List.Subset.refl _⟩
theorem pop (a : Byte) : Statement (.pop a) := ⟨rfl, List.Subset.refl _⟩
theorem call (a : Byte) : Statement (.call a) := ⟨rfl, List.Subset.refl _⟩
theorem ret : Statement .ret := ⟨rfl, List.Subset.refl _⟩
theorem cmp (a b : Byte) : Statement (.cmp a b) := ⟨rfl, List.Subset.refl _⟩
theorem jmp (a : Byte) : Statement (.jmp a) := ⟨rfl, List.Subset.refl _⟩
theorem jeq (a : Byte) : Statement (.jeq a) := ⟨rfl, List.Subset.refl _⟩
theorem jne (a : Byte) : Statement (.jne a) := ⟨rfl, List.Subset.refl _⟩

end Sys2Proof.Laws.Operands
end

