-- ==== Sys2Proof/Tests/Slice0.lean ====
section
/-! SUPPORT. Tests of single operations and steps, with the spec's own vectors (95) as expectations, and a witness for
the hypotheses of every statement. -/

namespace Sys2Proof.Tests

open Sys2Proof.Machine

/-! Helpers -/

/-- A RUNNING core at an address, with the bytes of an instruction stored there and the registers given; all else as at
reset. -/
def at' (pc : Byte) (bytes : List Byte) (x : Vector Byte 8 := State.reset.x) (fl : Flags := ⟨false, false, false⟩)
    (mem : Memory := []) : State :=
  { State.reset with mem := Memory.writeBytes mem pc.toNat bytes, x := x, pc := pc, fl := fl, status := .running }

/-- Registers with one value in R0, one in R1 and one in R7. -/
def regs (r0 r1 sp : Byte) : Vector Byte 8 := #v[r0, r1, 0, 0, 0, 0, 0, sp]

/-- The state answered, if one is. -/
def answered : Host.Outcome State Fault Refusal → Option State
  | .next t => some t
  | .fault _ => none
  | .refused _ => none

/-- One field or expression of the state after a step. -/
def after {α : Type} (s : State) (f : State → α) : Option α := (answered (step s)).map f

/-- The status after a fault. -/
def faultStatus (k : FaultKind) (pc op : Byte) (d : Option Detail) : Status := .fault ⟨k, pc, op, d⟩

/-! Well-formedness: an ill-formed term for each register operand (30 R74, R79) -/

theorem test_wf_largest : Instr.wf (.add 7 7) = true ∧ Instr.wf (.ldi 7 255) = true := by decide
theorem test_wf_refuses_ldi_a : Instr.wf (.ldi 8 0) = false := by decide
theorem test_wf_refuses_prn_a : Instr.wf (.prn 8) = false := by decide
theorem test_wf_refuses_mul_a : Instr.wf (.mul 8 0) = false := by decide
theorem test_wf_refuses_mul_b : Instr.wf (.mul 0 8) = false := by decide
theorem test_wf_refuses_add_a : Instr.wf (.add 8 0) = false := by decide
theorem test_wf_refuses_add_b : Instr.wf (.add 0 8) = false := by decide
theorem test_wf_refuses_push_a : Instr.wf (.push 8) = false := by decide
theorem test_wf_refuses_pop_a : Instr.wf (.pop 8) = false := by decide
theorem test_wf_refuses_call_a : Instr.wf (.call 255) = false := by decide
theorem test_wf_refuses_cmp_a : Instr.wf (.cmp 8 0) = false := by decide
theorem test_wf_refuses_cmp_b : Instr.wf (.cmp 0 8) = false := by decide
theorem test_wf_refuses_jmp_a : Instr.wf (.jmp 8) = false := by decide
theorem test_wf_refuses_jeq_a : Instr.wf (.jeq 9) = false := by decide
theorem test_wf_refuses_jne_a : Instr.wf (.jne 8) = false := by decide

/-! Decoding: a word of every row, bit by bit from 30 R76, R77 -/

theorem test_decode_hlt : decode [0b00000001, 0b11111111] = .ok .hlt [0b11111111] := by decide
theorem test_decode_ldi : decode [0b10000010, 0b00000000, 0b00001000] = .ok (.ldi 0 8) [] := by decide
theorem test_decode_prn : decode [0b01000111, 0b00000011] = .ok (.prn 3) [] := by decide
theorem test_decode_mul : decode [0b10100010, 0b00000000, 0b00000001] = .ok (.mul 0 1) [] := by decide
theorem test_decode_add : decode [0b10100000, 0b00000111, 0b00000001] = .ok (.add 7 1) [] := by decide
theorem test_decode_push : decode [0b01000101, 0b00000011] = .ok (.push 3) [] := by decide
theorem test_decode_pop : decode [0b01000110, 0b00000001] = .ok (.pop 1) [] := by decide
theorem test_decode_call : decode [0b01010000, 0b00000001] = .ok (.call 1) [] := by decide
theorem test_decode_ret : decode [0b00010001] = .ok .ret [] := by decide
theorem test_decode_cmp : decode [0b10100111, 0b00000010, 0b00000001] = .ok (.cmp 2 1) [] := by decide
theorem test_decode_jmp : decode [0b01010100, 0b00000010] = .ok (.jmp 2) [] := by decide
theorem test_decode_jeq : decode [0b01010101, 0b00000011] = .ok (.jeq 3) [] := by decide
theorem test_decode_jne : decode [0b01010110, 0b00000100] = .ok (.jne 4) [] := by decide

/-- A byte one bit away from ADD, and a byte with operand count 3, have no handler (95 L2-60-3, L2-60-4). -/
theorem test_decode_refuses :
    decode [0xA1, 0x00, 0x01] = .refused (.noHandler 0xA1) ∧ decode [0xC0] = .refused (.noHandler 0xC0) ∧
      decode [0x82, 0x00] = .refused (.operandMissing 2) := by decide

/-- The numbering of the opcode table: the first byte is bits 7..0 (LDI R0, 8; PRN R3; HLT). -/
theorem test_decodeTableWord :
    decodeTableWord 24 0x080082 = some (.ldi 0 8) ∧ decodeTableWord 16 0x0347 = some (.prn 3) ∧
      decodeTableWord 8 0x01 = some .hlt ∧ decodeTableWord 24 0x0100A1 = none := by decide

/-- The very next step runs the instruction placed from reset (95 L2-41-3). -/
theorem test_withFetchWord :
    after (State.reset.withFetchWord 24 0x080082) (fun t => (t.x[0], t.pc, t.status)) =
      some (0x08, 0x03, .running) := by decide

/-! Steps, with the vectors of 95 -/

/-- L2-41-1 and L2-41-2. -/
theorem test_hlt_halts : after (at' 0x00 [0x01]) (fun t => (t.status, t.pc)) = some (.halted, 0x00) := by decide
theorem test_hlt_at_top : after (at' 0xFF [0x01]) (fun t => (t.status, t.pc)) = some (.halted, 0xFF) := by decide

/-- L2-41-5 and L2-41-9. -/
theorem test_ldi_sp : after (at' 0x00 [0x82, 0x07, 0x10]) (fun t => (t.x[7], t.pc)) = some (0x10, 0x03) := by decide
theorem test_ldi_advance_fault :
    after (at' 0xFD [0x82, 0x00, 0x07]) (fun t => (t.x[0], t.pc, t.status)) =
      some (0x07, 0xFD, faultStatus .addressOutOfRange 0xFD 0x82 (some 256)) := by decide

/-- L2-41-14 and L2-41-16. -/
theorem test_prn_sp : after (at' 0x00 [0x47, 0x07]) (fun t => (t.out, t.pc)) = some ([244], 0x02) := by decide
theorem test_prn_advance_fault :
    after (at' 0xFE [0x47, 0x00] (regs 5 0 0xF4)) (fun t => (t.out, t.status)) =
      some ([5], faultStatus .addressOutOfRange 0xFE 0x47 (some 256)) := by decide

/-- L2-42-11 and L2-42-17. -/
theorem test_mul_wraps :
    after (at' 0x00 [0xA2, 0x00, 0x01] (regs 255 255 0xF4) ⟨false, false, true⟩) (fun t => (t.x[0], t.fl, t.pc)) =
      some (1, ⟨false, false, true⟩, 0x03) := by decide
theorem test_mul_squares :
    after (at' 0x00 [0xA2, 0x01, 0x01] (regs 0 12 0xF4)) (fun t => t.x[1]) = some 144 := by decide

/-- L2-42-3 and L2-42-8. -/
theorem test_add_wraps :
    after (at' 0x00 [0xA0, 0x00, 0x01] (regs 200 100 0xF4) ⟨true, false, false⟩) (fun t => (t.x[0], t.fl)) =
      some (44, ⟨true, false, false⟩) := by decide
theorem test_add_sp :
    after (at' 0x00 [0xA0, 0x07, 0x01] (regs 0 255 244)) (fun t => t.x[7]) = some 243 := by decide

/-- L2-42-21 and L2-42-22: the comparison is unsigned. -/
theorem test_cmp_less :
    after (at' 0x00 [0xA7, 0x00, 0x01] (regs 0 255 0xF4)) (fun t => (t.fl, t.pc)) =
      some (⟨false, false, true⟩, 0x03) := by decide
theorem test_cmp_clears :
    after (at' 0x00 [0xA7, 0x00, 0x01] (regs 255 0 0xF4) ⟨true, false, false⟩) (fun t => t.fl) =
      some ⟨false, true, false⟩ := by decide

/-- L2-43-8 and L2-43-3. -/
theorem test_push_address_zero :
    after (at' 0x10 [0x45, 0x00] (regs 0x77 0 0x01)) (fun t => (t.x[7], Memory.read t.mem 0, t.pc)) =
      some (0x00, 0x77, 0x12) := by decide
theorem test_push_sp :
    after (at' 0x00 [0x45, 0x07]) (fun t => (t.x[7], Memory.read t.mem 0xF3)) = some (0xF3, 0xF3) := by decide

/-- L2-43-2 and L2-43-6. -/
theorem test_pop_keeps_memory :
    after (at' 0x00 [0x46, 0x01] (regs 0 0 0xF3) ⟨false, false, false⟩ [(0xF3, 0x2A)])
      (fun t => (t.x[1], t.x[7], Memory.read t.mem 0xF3)) = some (0x2A, 0xF4, 0x2A) := by decide
theorem test_pop_sp_wraps :
    after (at' 0x00 [0x46, 0x07] (regs 0 0 0xF3) ⟨false, false, false⟩ [(0xF3, 0xFF)]) (fun t => t.x[7]) =
      some 0x00 := by decide

/-- L2-44-11 and L2-44-18. -/
theorem test_call_pushes :
    after (at' 0x10 [0x50, 0x01] (regs 0 0x20 0xF4)) (fun t => (t.x[7], Memory.read t.mem 0xF3, t.pc)) =
      some (0xF3, 0x12, 0x20) := by decide
theorem test_call_sp :
    after (at' 0x04 [0x50, 0x07]) (fun t => (Memory.read t.mem 0xF3, t.pc)) = some (0x06, 0xF3) := by decide

/-- L2-44-14 and L2-44-13. -/
theorem test_ret_at_top :
    after (at' 0xFF [0x11] (regs 0 0 0xF3) ⟨false, false, false⟩ [(0xF3, 0x07)]) (fun t => (t.pc, t.x[7])) =
      some (0x07, 0xF4) := by decide
theorem test_ret_underflow :
    after (at' 0x00 [0x11]) (fun t => (t.status, t.x[7])) =
      some (faultStatus .stackUnderflow 0x00 0x11 (some 244), 0xF4) := by decide

/-- L2-44-1, with R1 for R2, and L2-44-19. -/
theorem test_jmp : after (at' 0x00 [0x54, 0x01] (regs 0 0x05 0xF4)) (fun t => t.pc) = some 0x05 := by decide
theorem test_jmp_operand_fetch :
    after (at' 0xFF [0x54]) (fun t => t.status) = some (faultStatus .addressOutOfRange 0xFF 0x54 (some 256)) := by
  decide

/-- L2-44-10 and L2-44-8. -/
theorem test_jeq_taken_at_top :
    after (at' 0xFE [0x55, 0x00] (regs 0x20 0 0xF4) ⟨true, false, false⟩) (fun t => (t.pc, t.status)) =
      some (0x20, .running) := by decide
theorem test_jeq_checks_operand :
    after (at' 0x00 [0x55, 0x09]) (fun t => t.status) = some (faultStatus .badRegister 0x00 0x55 (some 9)) := by
  decide

/-- L2-44-6, with R1 for R3, and L2-44-7. -/
theorem test_jne_taken :
    after (at' 0x08 [0x56, 0x01] (regs 0 0x40 0xF4) ⟨false, true, false⟩) (fun t => t.pc) = some 0x40 := by decide
theorem test_jne_not_taken :
    after (at' 0x08 [0x56, 0x01] (regs 0 0x40 0xF4) ⟨true, false, false⟩) (fun t => t.pc) = some 0x0A := by decide

/-- Priority (60 R209): L2-43-18, L2-44-16, L2-60-6, L2-60-7, L2-60-8. -/
theorem test_fault_priority :
    after (at' 0x00 [0x45, 0x09] (regs 0 0 0x00)) (fun t => t.status) =
        some (faultStatus .badRegister 0x00 0x45 (some 9)) ∧
      after (at' 0xFE [0x50, 0x01] (regs 0 0x20 0x00)) (fun t => t.status) =
        some (faultStatus .addressOutOfRange 0xFE 0x50 (some 256)) ∧
      after (at' 0xFF [0xC5]) (fun t => t.status) = some (faultStatus .decodeError 0xFF 0xC5 none) ∧
      after (at' 0xFE [0xA0, 0x09]) (fun t => t.status) =
        some (faultStatus .addressOutOfRange 0xFE 0xA0 (some 256)) ∧
      after (at' 0x00 [0xA0, 0x08, 0x09]) (fun t => t.status) =
        some (faultStatus .badRegister 0x00 0xA0 (some 8)) := by decide

/-- The ports at the start of L3-P1's fourth step: the trace and the output (40 R101, R119); the flag layout
(10 R31). -/
theorem test_ports :
    (at' 0x09 [0x47, 0x00] (regs 72 9 0xF4)).outPort = some 72 ∧
      ((at' 0x09 [0x47, 0x00] (regs 72 9 0xF4)).tracePort.map fun r => (r.pc, r.opcode, r.regs[0])) =
        some (0x09, 0x47, 72) ∧
      State.reset.tracePort = none ∧ (Flags.mk true false false).toByte = 0b00000001 ∧
      (Flags.mk false true false).toByte = 0b00000010 ∧ (Flags.mk false false true).toByte = 0b00000100 := by
  decide

/-- The output history is readable through `inspect` (60 R219), after L2-41-14. -/
theorem test_inspect_output : after (at' 0x00 [0x47, 0x07]) (fun t => t.inspect.out) = some [244] := by decide

/-- The end of a run as an exit code and as ports (60 R206, R221). -/
theorem test_fault_port :
    (after (at' 0x00 [0x82, 0x08, 0x05]) fun t => (t.status.code, t.faultPort)) =
      some (6, some ⟨.badRegister, 0x00, 0x82, some 8⟩) ∧ State.reset.faultPort = none := by decide

/-! Witnesses: for every statement that has hypotheses, and for each of its clauses, states and operands that meet them,
at the bounds of their ranges -/

/-- A map other than the default: HLT and RET change bytes. -/
def swapped : OpcodeMap
  | .hlt => Config.opcodeMap .ret
  | .ret => Config.opcodeMap .hlt
  | h => Config.opcodeMap h

theorem witness_DecodeEncodeForEveryOpcodeMap : OpcodeMap.Valid Config.opcodeMap ∧ OpcodeMap.Valid swapped := by
  refine ⟨opcodeMap_valid, fun h k => ?_, fun h => ?_⟩
  · cases h <;> cases k <;> decide
  · cases h <;> rfl

theorem witness_DecodedBytesAreTheEncoding : decode [0x82, 0x07, 0xFF, 0x09] = .ok (.ldi 7 255) [0x09] := by decide

theorem witness_TopTwoBitsTellTheLength :
    decode [0x01] = .ok .hlt [] ∧ decode [0x56, 0xFF] = .ok (.jne 255) [] ∧
      decode [0xA7, 0x00, 0xFF, 0x01] = .ok (.cmp 0 255) [0x01] := by decide

theorem witness_CountThreeHasNoHandler : 0xC0 ≤ (0xC0 : Byte).toNat ∧ 0xC0 ≤ (0xFF : Byte).toNat := by decide

theorem witness_StepRunsDecodedInstruction :
    (at' 0xFD [0x82, 0x00, 0x07]).status = .running ∧
      decode (at' 0xFD [0x82, 0x00, 0x07]).bytesFrom = .ok (.ldi 0 7) [] ∧
      decode (at' 0xFF [0x01]).bytesFrom = .ok .hlt [] := by decide

theorem witness_DecodeErrorExactlyOnBytesWithoutHandler_none :
    (at' 0xFF [0xC0]).status = .running ∧
      ∀ h, Config.opcodeMap h ≠ Memory.read (at' 0xFF [0xC0]).mem (at' 0xFF [0xC0]).pc.toNat := by
  refine ⟨rfl, fun h => ?_⟩
  cases h <;> decide

theorem witness_DecodeErrorExactlyOnBytesWithoutHandler_row :
    (at' 0xFF [0x82]).status = .running ∧
      Config.opcodeMap .ldi = Memory.read (at' 0xFF [0x82]).mem (at' 0xFF [0x82]).pc.toNat ∧
      ∃ t r, step (at' 0xFF [0x82]) = .next t ∧ t.status = .fault r := ⟨rfl, rfl, _, _, rfl, rfl⟩

theorem witness_OperandFetchPastTheTopFaults :
    (Config.opcodeMap .ldi = Memory.read (at' 0xFE [0x82, 0x00]).mem (at' 0xFE [0x82, 0x00]).pc.toNat ∧
        255 < (at' 0xFE [0x82, 0x00]).pc.toNat + Mnemonic.ldi.format.operandCount) ∧
      Config.opcodeMap .prn = Memory.read (at' 0xFF [0x47]).mem (at' 0xFF [0x47]).pc.toNat ∧
      255 < (at' 0xFF [0x47]).pc.toNat + Mnemonic.prn.format.operandCount ∧
      (at' 0xFE [0x82, 0x00]).status = .running ∧ (at' 0xFF [0x47]).status = .running := by decide

theorem witness_StepRunsDecodedInstructionForEveryParameters :
    OpcodeMap.Valid (Params.mk swapped 0x80).opcodeMap ∧ (at' 0xFF [0x11]).status = .running ∧
      decodeWith (Params.mk swapped 0x80).opcodeMap (at' 0xFF [0x11]).bytesFrom = .ok .hlt [] :=
  ⟨witness_DecodeEncodeForEveryOpcodeMap.2, rfl, by decide⟩

theorem witness_StepStatusIsTheFirstFault :
    OpcodeMap.Valid (Params.mk swapped 0x80).opcodeMap ∧ OpcodeMap.Valid Config.params.opcodeMap ∧
      (at' 0x00 [0x00]).status = .running :=
  ⟨witness_DecodeEncodeForEveryOpcodeMap.2, opcodeMap_valid, rfl⟩

theorem witness_FaultsArePrecise :
    ∃ t r, (at' 0x00 [0x11]).status = .running ∧ step (at' 0x00 [0x11]) = .next t ∧ t.status = .fault r ∧
      (at' 0x00 [0x11]).earlyFault Config.params ≠ none := ⟨_, _, rfl, rfl, rfl, by decide⟩

/-- The advance fault, the one with no early fault. -/
theorem witness_FaultsArePrecise_advance :
    ∃ t r, (at' 0xFE [0x47, 0x00]).status = .running ∧ step (at' 0xFE [0x47, 0x00]) = .next t ∧ t.status = .fault r ∧
      (at' 0xFE [0x47, 0x00]).earlyFault Config.params = none := ⟨_, _, rfl, rfl, rfl, by decide⟩

/-- One step into each of the five kinds. -/
theorem witness_FaultRecordIsSetOnce_set :
    (∃ t, step (at' 0xFF [0x45]) = .next t ∧ t.status = faultStatus .addressOutOfRange 0xFF 0x45 (some 256)) ∧
      (∃ t, step (at' 0x00 [0x45, 0xFF]) = .next t ∧ t.status = faultStatus .badRegister 0x00 0x45 (some 255)) ∧
      (∃ t, step (at' 0x00 [0x45, 0x00] (regs 0 0 0)) = .next t ∧
        t.status = faultStatus .stackOverflow 0x00 0x45 (some 0)) ∧
      (∃ t, step (at' 0x00 [0x11]) = .next t ∧ t.status = faultStatus .stackUnderflow 0x00 0x11 (some 0xF4)) ∧
      ∃ t, step (at' 0x00 [0x00]) = .next t ∧ t.status = faultStatus .decodeError 0x00 0x00 none :=
  ⟨⟨_, rfl, rfl⟩, ⟨_, rfl, rfl⟩, ⟨_, rfl, rfl⟩, ⟨_, rfl, rfl⟩, _, rfl, rfl⟩

theorem witness_FaultRecordIsSetOnce_stays :
    (State.reset.raise .decodeError none).status = .fault ⟨.decodeError, 0x00, 0x00, none⟩ ∧
      HostAction.rst ∉ [HostAction.start, .stepReq, .load 0 1] := by decide

theorem witness_HltHalts :
    (at' 0xFF [0x01]).status = .running ∧
      Memory.read (at' 0xFF [0x01]).mem (at' 0xFF [0x01]).pc.toNat = Config.opcodeMap .hlt := by decide

/-- The bounds of the advance by 3: LDI, MUL, ADD and CMP. -/
theorem witness_LdiLoadsImmediate : (at' 252 []).pc.toNat ≤ 252 ∧ 253 ≤ (at' 253 []).pc.toNat := by decide
theorem witness_MulMultipliesModulo256 : (at' 252 []).pc.toNat ≤ 252 ∧ 253 ≤ (at' 253 []).pc.toNat := by decide
theorem witness_AddAddsModulo256 : (at' 252 []).pc.toNat ≤ 252 ∧ 253 ≤ (at' 253 []).pc.toNat := by decide
theorem witness_CmpSetsExactlyOneFlag : (at' 252 []).pc.toNat ≤ 252 ∧ 253 ≤ (at' 253 []).pc.toNat := by decide

/-- The bounds of the advance by 2. -/
theorem witness_PrnEmitsRegister : (at' 253 []).pc.toNat ≤ 253 ∧ 254 ≤ (at' 254 []).pc.toNat := by decide

theorem witness_PushStoresBelowTheStackPointer :
    ((at' 253 [] (regs 0 0 1)).x[7] ≠ 0 ∧ (at' 253 [] (regs 0 0 1)).pc.toNat ≤ 253) ∧
      (at' 254 [] (regs 0 0 1)).x[7] ≠ 0 ∧ 254 ≤ (at' 254 [] (regs 0 0 1)).pc.toNat := by decide

theorem witness_PopLoadsTheTop :
    ((at' 253 [] (regs 0 0 0xF3)).x[7].toNat < 0xF4 ∧ (at' 253 [] (regs 0 0 0xF3)).pc.toNat ≤ 253) ∧
      (at' 254 [] (regs 0 0 0xF3)).x[7].toNat < 0xF4 ∧ 254 ≤ (at' 254 [] (regs 0 0 0xF3)).pc.toNat := by decide

theorem witness_CallPushesReturnAddressAndJumps :
    ((at' 253 [] (regs 0 0 1)).x[7] ≠ 0 ∧ (at' 253 [] (regs 0 0 1)).pc.toNat ≤ 253) ∧
      254 ≤ (at' 254 [] (regs 0 0 0)).pc.toNat := by decide

theorem witness_RetPopsThePc : (at' 255 [] (regs 0 0 0xF3)).x[7].toNat < 0xF4 := by decide

theorem witness_JeqJumpsIfEqual :
    (at' 255 [] State.reset.x ⟨true, false, false⟩).fl.e = true ∧
      ((at' 253 []).fl.e = false ∧ (at' 253 []).pc.toNat ≤ 253) ∧
      (at' 254 []).fl.e = false ∧ 254 ≤ (at' 254 []).pc.toNat := by decide

theorem witness_JneJumpsIfNotEqual :
    (at' 255 []).fl.e = false ∧
      ((at' 253 [] State.reset.x ⟨true, false, false⟩).fl.e = true ∧
        (at' 253 [] State.reset.x ⟨true, false, false⟩).pc.toNat ≤ 253) ∧
      (at' 254 [] State.reset.x ⟨true, false, false⟩).fl.e = true ∧
      254 ≤ (at' 254 [] State.reset.x ⟨true, false, false⟩).pc.toNat := by decide

theorem witness_BadRegisterExactlyOnOperandsAboveSeven_raised :
    (Instr.add 8 9).regOperands.find? (fun r => decide (7 < r.toNat)) = some 8 ∧
      (Instr.add 7 255).regOperands.find? (fun r => decide (7 < r.toNat)) = some 255 := by decide

theorem witness_BadRegisterExactlyOnOperandsAboveSeven_only :
    ∃ t r, (at' 0 []).status = .running ∧ exec (.cmp 7 8) (at' 0 []) = .next t ∧ t.status = .fault r ∧
      r.kind = .badRegister := ⟨_, _, rfl, rfl, rfl, rfl⟩

theorem witness_StackOverflowExactlyOnPushAtZero :
    (at' 255 [] (regs 0 0 0)).x[7] = 0 ∧
      ((at' 253 [] (regs 0 0 0)).x[7] = 0 ∧ (at' 253 [] (regs 0 0 0)).pc.toNat ≤ 253) ∧
      ∃ t r, (at' 0 [] (regs 0 0 0)).status = .running ∧ exec (.call 7) (at' 0 [] (regs 0 0 0)) = .next t ∧
        t.status = .fault r ∧ r.kind = .stackOverflow :=
  ⟨by decide, by decide, _, _, rfl, rfl, rfl, rfl⟩

theorem witness_StackUnderflowExactlyOnPopWhenEmpty :
    0xF4 ≤ (at' 255 [] (regs 0 0 0xF4)).x[7].toNat ∧ 0xF4 ≤ (at' 255 [] (regs 0 0 0xFF)).x[7].toNat ∧
      ∃ t r, (at' 0 []).status = .running ∧ exec .ret (at' 0 []) = .next t ∧ t.status = .fault r ∧
        r.kind = .stackUnderflow :=
  ⟨by decide, by decide, _, _, rfl, rfl, rfl, rfl⟩

/-- A sentinel other than the default: SP just below it and at it. -/
theorem witness_PopAndRetForEverySentinel :
    ((at' 253 [] (regs 0 0 0x7F)).x[7].toNat < (Params.mk Config.opcodeMap 0x80).stackEmpty.toNat ∧
        (at' 253 [] (regs 0 0 0x7F)).pc.toNat ≤ 253) ∧
      ((at' 254 [] (regs 0 0 0x7F)).x[7].toNat < (Params.mk Config.opcodeMap 0x80).stackEmpty.toNat ∧
        254 ≤ (at' 254 [] (regs 0 0 0x7F)).pc.toNat) ∧
      (Params.mk Config.opcodeMap 0x80).stackEmpty.toNat ≤ (at' 0 [] (regs 0 0 0x80)).x[7].toNat ∧
      (∀ a, Instr.hlt ≠ .pop a) ∧ Instr.hlt ≠ .ret :=
  ⟨by decide, by decide, by decide, by simp, by simp⟩

theorem witness_AdvanceFaultKeepsTheEffects :
    ∃ t u, continuesAfter (.pop 0) (at' 254 [] (regs 0 0 0)).fl = true ∧
      255 < (at' 254 [] (regs 0 0 0)).pc.toNat + (encode (.pop 0)).length ∧
      exec (.pop 0) (at' 254 [] (regs 0 0 0)) = .next t ∧
      exec (.pop 0) { at' 254 [] (regs 0 0 0) with pc := 0 } = .next u ∧ u.pc ≠ 0 :=
  ⟨_, _, rfl, by decide, rfl, rfl, by decide⟩

theorem witness_HltIsTheOnlyNormalTermination :
    ∃ t, (at' 255 [0x01]).status = .running ∧ step (at' 255 [0x01]) = .next t ∧ t.status = .halted :=
  ⟨_, rfl, rfl, rfl⟩

theorem witness_RegisterFrame : ∃ t, exec (.pop 5) (at' 0 [] (regs 0 0 0)) = .next t ∧ ¬ WritesRegister (.pop 5) 6 :=
  ⟨_, rfl, by simp [WritesRegister, regByte]⟩

theorem witness_MemoryFrame :
    ∃ t, exec (.push 0) (at' 0 [] (regs 9 0 1)) = .next t ∧ storeAddress (.push 0) (at' 0 [] (regs 9 0 1)) ≠ some 1 :=
  ⟨_, rfl, by decide⟩

theorem witness_LatchAndOutputFrame : ∃ t, exec (.prn 0) (at' 0 []) = .next t ∧ ∀ a, Instr.add 0 0 ≠ .prn a :=
  ⟨_, rfl, by simp⟩

theorem witness_StatusFrame : ∃ t, exec (.call 0) (at' 254 []) = .next t := ⟨_, rfl⟩

theorem witness_FlagsWrittenByCmpReadByBranches :
    (∃ t, exec (.add 0 1) (at' 0 []) = .next t ∧ ∀ a b, Instr.add 0 1 ≠ .cmp a b) ∧
      (∃ t, exec (.cmp 0 7) (at' 0 []) = .next t ∧ Instr.wf (.cmp 0 7) = true) ∧
      (∃ t, exec (.jeq 0) (at' 0 []) = .next t ∧ (at' 0 []).fl.exclusive = true) ∧
      (∃ t u, (∀ a, Instr.mul 0 1 ≠ .jeq a ∧ Instr.mul 0 1 ≠ .jne a) ∧ exec (.mul 0 1) (at' 0 []) = .next t ∧
        exec (.mul 0 1) { at' 0 [] with fl := ⟨true, false, false⟩ } = .next u) ∧
      ∃ t u, exec (.jne 0) (at' 0 []) = .next t ∧
        exec (.jne 0) { at' 0 [] with fl := ⟨(at' 0 []).fl.e, true, true⟩ } = .next u :=
  ⟨⟨_, rfl, by simp⟩, ⟨_, rfl, rfl⟩, ⟨_, rfl, rfl⟩, ⟨_, _, by simp, rfl, rfl⟩, _, _, rfl, rfl⟩

theorem witness_MemoryAccessors_instruction :
    (∃ t, exec (.ldi 0 9) (at' 0 []) = .next t ∧ ∀ a, Instr.ldi 0 9 ≠ .push a ∧ Instr.ldi 0 9 ≠ .call a) ∧
      (∃ t u, exec (.push 0) (at' 0 []) = .next t ∧ exec (.push 0) { at' 0 [] with mem := [(1, 1)] } = .next u ∧
        ((Instr.push 0).mnemonic = .pop ∨ (Instr.push 0).mnemonic = .ret →
          Memory.read [(1, 1)] (at' 0 []).x[7].toNat = Memory.read (at' 0 []).mem (at' 0 []).x[7].toNat)) ∧
      ∃ t u, exec .ret (at' 0 [] (regs 0 0 0xF3)) = .next t ∧
        exec .ret { at' 0 [] (regs 0 0 0xF3) with mem := [(1, 1)] } = .next u ∧
        Memory.read [(1, 1)] (at' 0 [] (regs 0 0 0xF3)).x[7].toNat =
          Memory.read (at' 0 [] (regs 0 0 0xF3)).mem (at' 0 [] (regs 0 0 0xF3)).x[7].toNat :=
  ⟨⟨_, rfl, by simp⟩, ⟨_, _, rfl, rfl, by decide⟩, _, _, rfl, rfl, rfl⟩

/-- PUSH R0 at the top of its range, and another memory that differs everywhere else. -/
theorem witness_MemoryAccessors_step :
    ∃ t u, (at' 0xFE [0x45, 0x00]).status = .running ∧ step (at' 0xFE [0x45, 0x00]) = .next t ∧
      step { at' 0xFE [0x45, 0x00] with mem := [(0, 1), (0xFE, 0x45)] } = .next u ∧
      (at' 0xFE [0x45, 0x00]).SameInstruction [(0, 1), (0xFE, 0x45)] ∧
      (at' 0xFE [0x45, 0x00]).opcodeIn Config.opcodeMap [.pop, .ret] = false := by
  refine ⟨_, _, rfl, rfl, rfl, fun k hk _ => ?_, by decide⟩
  have hk : k ≤ 1 := hk
  interval_cases k <;> decide

theorem witness_MemoryAccessors_host :
    ∃ t, HostAction.load 0xFF 9 ≠ .stepReq ∧ HostAction.load 0xFF 9 ≠ .rst ∧
      act (.load 0xFF 9) State.reset = .next t := ⟨_, by decide, by decide, rfl⟩

theorem witness_UnnamedRegisterIsInert :
    ∃ t, (6 : RegIndex) ≠ 7 ∧
      (∀ i rest, decode (at' 0xFE [0x45, 0x05]).bytesFrom = .ok i rest → regByte 6 ∉ i.regOperands) ∧
      step (at' 0xFE [0x45, 0x05]) = .next t := by
  refine ⟨_, by decide, fun i rest h => ?_, rfl⟩
  have hd : decode (at' 0xFE [0x45, 0x05]).bytesFrom = .ok (.push 5) [] := by decide
  rw [hd] at h
  cases h
  decide

theorem witness_PushPopRoundTrip :
    (1 ≤ (at' 251 [] (regs 0 0 1)).x[7].toNat ∧ (at' 251 [] (regs 0 0 1)).x[7].toNat ≤ 0xF4 ∧
        (at' 251 [] (regs 0 0 1)).pc.toNat ≤ 251) ∧
      1 ≤ (at' 251 []).x[7].toNat ∧ (at' 251 []).x[7].toNat ≤ 0xF4 ∧ (at' 251 []).pc.toNat ≤ 251 := by decide

theorem witness_CallRetResumesAfterTheCall :
    (1 ≤ (at' 253 [] (regs 0 0 1)).x[7].toNat ∧ (at' 253 [] (regs 0 0 1)).x[7].toNat ≤ 0xF4 ∧
        (at' 253 [] (regs 0 0 1)).pc.toNat ≤ 253) ∧
      1 ≤ (at' 253 []).x[7].toNat ∧ (at' 253 []).x[7].toNat ≤ 0xF4 ∧
      ∃ t u : State, exec (.call 0) (at' 253 []) = .next t ∧ u.x[7] = t.x[7] ∧
        Memory.read u.mem u.x[7].toNat = Memory.read t.mem t.x[7].toNat :=
  ⟨by decide, by decide, by decide, _, _, rfl, rfl, rfl⟩

theorem witness_CompareThenBranch : (at' 250 []).pc.toNat ≤ 250 := by decide

/-- PUSH R0 onto the next opcode; PUSH R7 onto the next operand; CALL R1 to its own pushed byte. -/
theorem witness_NextFetchSeesTheStore :
    (∃ t u, (at' 253 [] (regs 1 0 1)).status = .running ∧ (at' 253 [] (regs 1 0 1)).x[7] ≠ 0 ∧
        (at' 253 [] (regs 1 0 1)).pc.toNat ≤ 253 ∧
        exec (.push (regByte 0)) (at' 253 [] (regs 1 0 1)) = .next t ∧ step t = .next u) ∧
      (∃ t u, exec (.push (regByte 0)) (at' 0x10 [] (regs 1 0 0x13)) = .next t ∧ step t = .next u ∧
        (at' 0x10 [] (regs 1 0 0x13)).x[7].toNat - 1 = t.pc.toNat ∧ u.ir = 1) ∧
      (∃ t u, exec (.push (regByte 7)) (at' 0x10 [] (regs 0 0 0x14) ⟨false, false, false⟩ [(0x12, 0x47)]) = .next t ∧
        step t = .next u ∧ (regs 0 0 0x14)[7].toNat - 1 = t.pc.toNat + 1 ∧ t.opcodeAt = Config.opcodeMap .prn ∧
        u.opA = 0x13) ∧
      (∃ t u, (at' 253 [] (regs 0 0 1)).x[7] ≠ 0 ∧ exec (.call (regByte 1)) (at' 253 [] (regs 0 0 1)) = .next t ∧
        step t = .next u ∧ (regs 0 0 1)[7].toNat - 1 = t.pc.toNat ∧ u.ir = 0xFF) ∧
      ∃ u, (at' 0 [0x45, 0x00]).status = .running ∧ step (at' 0 [0x45, 0x00]) = .next u ∧
        ∀ i rest, decode (at' 0 [0x45, 0x00]).bytesFrom = .ok i rest →
          storeAddress i (at' 0 [0x45, 0x00]) ≠ some 0xF2 := by
  refine ⟨⟨_, _, rfl, by decide, by decide, rfl, rfl⟩, ⟨_, _, rfl, rfl, by decide, rfl⟩,
    ⟨_, _, rfl, rfl, by decide, rfl, rfl⟩, ⟨_, _, by decide, rfl, rfl, by decide, rfl⟩, _, rfl, rfl,
    fun i rest h => ?_⟩
  cases i <;> first | exact Option.noConfusion | (simp only [storeAddress]; decide)

theorem witness_MulIsZeroExactlyOnMultiplesOf256 :
    ∃ t, exec (.mul (regByte 0) (regByte 1)) (at' 0 [] (regs 16 16 0xF4)) = .next t ∧ t.x[0] = 0 :=
  ⟨_, rfl, by decide⟩

theorem witness_StepKeepsTheInvariant : ∃ t, (at' 0 [0x01]).Inv ∧ step (at' 0 [0x01]) = .next t :=
  ⟨_, ⟨rfl, rfl, trivial⟩, rfl⟩

theorem witness_HostActionsKeepTheInvariant : State.reset.Inv := ⟨rfl, rfl, trivial⟩

theorem witness_OverIsFinal :
    State.Over { State.reset with status := .halted } ∧ State.Over (State.reset.raise .decodeError none) ∧
      HostAction.rst ∉ [HostAction.load 0 1, .start, .stepReq] :=
  ⟨.inl rfl, .inr ⟨_, rfl⟩, by decide⟩

/-- A budget that cuts a run off, and one that reaches its end. -/
theorem witness_BudgetCutsTheRunOff :
    (∃ t, (at' 0 [0x47, 0x00, 0x01]).status = .running ∧ runFuel 1 (at' 0 [0x47, 0x00, 0x01]) = .next t ∧
        t.status = .running) ∧
      ∃ t, runFuel 2 (at' 0 [0x47, 0x00, 0x01]) = .next t ∧ t.Over :=
  ⟨⟨_, rfl, rfl, rfl⟩, _, rfl, .inl rfl⟩

theorem witness_JumpToItselfNeverEnds :
    (at' 0xFE [0x54, 0x00] (regs 0xFE 0 0xF4)).status = .running ∧
      decode (at' 0xFE [0x54, 0x00] (regs 0xFE 0 0xF4)).bytesFrom = .ok (.jmp (regByte 0)) [] ∧
      (at' 0xFE [0x54, 0x00] (regs 0xFE 0 0xF4)).x[0] = (at' 0xFE [0x54, 0x00] (regs 0xFE 0 0xF4)).pc := by decide

theorem witness_OutputOnlyGrows :
    ∃ t, HostAction.rst ∉ [HostAction.load 0 0x47, .start, .stepReq] ∧
      actAll [.load 0 0x47, .start, .stepReq] State.reset = .next t ∧ t.out = [0] := ⟨_, by decide, rfl, rfl⟩

theorem witness_OutputPortIsAppended : ∃ t, step (at' 0 [0x47, 0x07]) = .next t ∧ t.out = [0xF4] := ⟨_, rfl, rfl⟩

theorem witness_LoadPlacesTheImage :
    (State.reset.status = .load ∧ (List.replicate 256 (0x01 : Byte)).length ≤ 256) ∧
      256 < (List.replicate 257 (0x01 : Byte)).length ∧
      (∃ t, (at' 0 []).status ≠ .load ∧ (at' 0 []).loadImage [0x01] = some t) ∧
      ∃ t, State.reset.loadImage [0x01, 0x02] = some t ∧ loadActions [0x01, 0x02] = [.load 0 0x01, .load 1 0x02] :=
  ⟨⟨rfl, le_of_eq List.length_replicate⟩, by rw [List.length_replicate]; omega, ⟨_, by decide, rfl⟩, _, rfl, rfl⟩

theorem witness_BootRunsTheFirstInstruction :
    [0x82, 0x00, 0x08, (0x01 : Byte)].length ≤ 256 ∧ decode [0x82, 0x00, 0x08, 0x01] = .ok (.ldi 0 8) [0x01] := by
  decide

end Sys2Proof.Tests
end

section
/-! PROOFS. The decoder as the inverse of the encoder, for any valid opcode map (30 R76, R77, R79). -/

namespace Sys2Proof

open Sys2Proof.Machine

@[simp] theorem Mnemonic.mnemonic_instr (h : Mnemonic) (a b : Byte) : (h.instr a b).mnemonic = h := by
  cases h <;> rfl

/-- An instruction keeps as many of the two bytes it is built from as its format has operands. -/
theorem Mnemonic.operandBytes_instr (h : Mnemonic) (a b : Byte) :
    (h.instr a b).operandBytes = [a, b].take h.format.operandCount := by
  cases h <;> rfl

theorem Format.operandCount_eq_two (f : Format) (hzero : f.operandCount ≠ 0) (hone : f.operandCount ≠ 1) :
    f.operandCount = 2 := by
  cases f with
  | f0 => exact absurd rfl hzero
  | f1R => exact absurd rfl hone
  | f2RR => rfl
  | f2RI => rfl

theorem Instr.length_operandBytes (i : Instr) : i.operandBytes.length = i.mnemonic.format.operandCount := by
  cases i <;> rfl

/-- Under a valid map the opcode byte tells the row, and the row the operand bytes: the decoder answers `i` exactly on
the byte of `i`'s row followed by `i`'s operand bytes. -/
theorem decodeOpcodeWith_eq_ok {m : OpcodeMap} (hm : m.Valid) {op : Byte} {bs : List Byte} {i : Instr}
    {rest : List Byte} :
    decodeOpcodeWith m op bs = .ok i rest ↔ m i.mnemonic = op ∧ bs = i.operandBytes ++ rest := by
  constructor
  · intro hdec
    unfold decodeOpcodeWith at hdec
    split at hdec
    case h_1 => cases hdec
    case h_2 h hd =>
      have hop : m h = op := (dispatchWith_eq_some hm).1 hd
      have hcount : operandCount op = h.format.operandCount := hop ▸ hm.2 h
      rw [hcount] at hdec
      split at hdec <;> cases hdec
      case h_1.refl hzero => simp [Mnemonic.operandBytes_instr, hop, hzero]
      case h_2.refl hone => simp [Mnemonic.operandBytes_instr, hop, hone]
      case h_4.refl hzero hone =>
        have htwo : h.format.operandCount = 2 := h.format.operandCount_eq_two hzero hone
        simp [Mnemonic.operandBytes_instr, hop, htwo]
  · rintro ⟨rfl, rfl⟩
    have hd := (dispatchWith_eq_some hm).2 (rfl : m i.mnemonic = _)
    have hcount := hm.2 i.mnemonic
    unfold decodeOpcodeWith
    rw [hd, hcount]
    cases i <;> rfl

/-- Decoding answers an instruction exactly on its encoding followed by the bytes left over. -/
theorem decodeWith_eq_ok {m : OpcodeMap} (hm : m.Valid) {bytes : List Byte} {i : Instr} {rest : List Byte} :
    decodeWith m bytes = .ok i rest ↔ bytes = encodeWith m i ++ rest := by
  cases bytes with
  | nil => simp [decodeWith, encodeWith]
  | cons op bs =>
    simp only [decodeWith, decodeOpcodeWith_eq_ok hm, encodeWith, List.cons_append, List.cons.injEq, eq_comm]

end Sys2Proof
end

section
/-! PROOFS. What the fetch unit reads are the first of the bytes from the pc to the top (40 R103, R107). -/

namespace Sys2Proof.Machine

theorem State.getElem?_bytesFrom (s : State) (k : Nat) : s.bytesFrom[k]? = s.byteAfter k := by
  by_cases h : s.pc.toNat + k ≤ 255
  · have hk : k < 256 - s.pc.toNat := by omega
    simp [State.bytesFrom, State.byteAfter_of_le h, hk]
  · have hk : 256 - s.pc.toNat ≤ k := by omega
    simp [State.bytesFrom, State.byteAfter_of_gt (Nat.lt_of_not_le h), hk]

theorem State.getElem?_bytesFrom_zero (s : State) : s.bytesFrom[0]? = some s.opcodeAt := by
  rw [s.getElem?_bytesFrom]
  exact State.byteAfter_of_le (by omega)

/-- Reading positions 0 to `n - 1` of a list, as far as they exist, gives its first `n` elements. -/
theorem filterMap_range_getElem? {α : Type} (l : List α) (n : Nat) :
    ((List.range n).filterMap fun k => l[k]?) = l.take n := by
  induction n with
  | zero => rfl
  | succ n ih => rw [List.range_succ, List.filterMap_append, ih, List.take_add_one]; cases h : l[n]? <;> simp [h]

/-- The operand bytes fetched are those after the opcode, as many as it asks for and as memory has. -/
theorem State.operandsAt_eq_take (s : State) : s.operandsAt = s.bytesFrom.tail.take (operandCount s.opcodeAt) := by
  simp only [State.operandsAt, List.reduceOption, List.filterMap_map, ← filterMap_range_getElem?, List.getElem?_tail,
    s.getElem?_bytesFrom, Function.id_comp]

/-- Where the bytes from the pc begin with an encoding, the opcode byte is the row's. -/
theorem State.opcodeAt_of_bytesFrom {m : OpcodeMap} {s : State} {i : Instr} {rest : List Byte}
    (h : s.bytesFrom = encodeWith m i ++ rest) : s.opcodeAt = m i.mnemonic := by
  have h0 := s.getElem?_bytesFrom_zero
  rw [h] at h0
  exact (Option.some.inj h0).symm

/-- Where the bytes from the pc begin with an encoding, the operand bytes fetched are the instruction's. -/
theorem State.operandsAt_of_bytesFrom {m : OpcodeMap} (hm : m.Valid) {s : State} {i : Instr} {rest : List Byte}
    (h : s.bytesFrom = encodeWith m i ++ rest) : s.operandsAt = i.operandBytes := by
  have hcount : operandCount s.opcodeAt = i.operandBytes.length := by
    rw [State.opcodeAt_of_bytesFrom h, hm.2, i.length_operandBytes]
  rw [s.operandsAt_eq_take, h, hcount]
  exact List.take_left

/-- The fetch of the instruction that the bytes from the pc decode to. -/
theorem State.fetchWith_of_decodeWith {m : OpcodeMap} (hm : m.Valid) {s : State} {i : Instr} {rest : List Byte}
    (h : decodeWith m s.bytesFrom = .ok i rest) : s.fetchWith m = .run i (s.latch i.operandBytes) := by
  have hbytes := (decodeWith_eq_ok hm).1 h
  have hdec : decodeWith m (s.opcodeAt :: s.operandsAt) = .ok i [] := by
    rw [decodeWith_eq_ok hm, State.opcodeAt_of_bytesFrom hbytes, State.operandsAt_of_bytesFrom hm hbytes,
      List.append_nil]
    rfl
  rw [State.fetchWith, hdec, State.operandsAt_of_bytesFrom hm hbytes]

/-- A RUNNING step, for any opcode map and any execution stage, executes the instruction that the bytes from the pc
decode to, with its bytes latched. -/
theorem stepWith_of_decodeWith {m : OpcodeMap} (hm : m.Valid)
    {run : Instr → State → Host.Outcome State Fault Refusal} {s : State} {i : Instr} {rest : List Byte}
    (hs : s.status = .running) (h : decodeWith m s.bytesFrom = .ok i rest) :
    stepWith m run s = run i (s.latch i.operandBytes) := by
  rw [stepWith_running hs, State.fetchWith_of_decodeWith hm h]

theorem step_eq_stepFor (s : State) : step s = stepFor Config.params s := by
  have hexec : exec = execFor Config.params := funext₂ exec_eq_execFor
  rw [step, hexec]
  rfl

/-- Settles O7: the fetch latches the bytes of the decoded instruction, whatever the opcode map, and the execution
stage is `execFor p`. -/
theorem stepRunsDecodedInstructionForEveryParameters :
    Obligations.StepRunsDecodedInstructionForEveryParameters :=
  fun _ _ _ _ hm hs h => stepWith_of_decodeWith hm hs h

/-- Settles O8: `exec` and `step` are their parameterised forms at `Config.params`, whose map is valid. -/
theorem theCoreIsTheDefaultOfItsParameters : Obligations.TheCoreIsTheDefaultOfItsParameters :=
  ⟨exec_eq_execFor, step_eq_stepFor, opcodeMap_valid, rfl, rfl⟩

end Sys2Proof.Machine
end

section
/-! PROOFS. What a fetch and a step can do (40 R103 to R107, R113), said through the decoder and the latches. -/

namespace Sys2Proof.Machine

/-- A fetch runs an instruction exactly where the bytes from the pc decode to it, and then its operand bytes are
latched. -/
theorem State.fetchWith_eq_run {m : OpcodeMap} (hm : m.Valid) {s u : State} {i : Instr} :
    s.fetchWith m = .run i u ↔ (∃ rest, decodeWith m s.bytesFrom = .ok i rest) ∧ u = s.latch i.operandBytes := by
  constructor
  · intro h
    have hrest : ∃ rest, decodeWith m s.bytesFrom = .ok i rest := by
      unfold State.fetchWith at h
      split at h
      next j rest hdec =>
        cases h
        obtain ⟨hop, hops⟩ := (decodeOpcodeWith_eq_ok hm).1 hdec
        refine ⟨rest ++ s.bytesFrom.tail.drop (operandCount s.opcodeAt), (decodeWith_eq_ok hm).2 ?_⟩
        have hhead : s.bytesFrom = s.opcodeAt :: s.bytesFrom.tail := List.eq_cons_of_mem_head? (by
          rw [List.head?_eq_getElem?, s.getElem?_bytesFrom_zero]; rfl)
        calc s.bytesFrom = s.opcodeAt :: (s.operandsAt ++ s.bytesFrom.tail.drop (operandCount s.opcodeAt)) := by
              rw [s.operandsAt_eq_take, List.take_append_drop, ← hhead]
          _ = encodeWith m i ++ (rest ++ s.bytesFrom.tail.drop (operandCount s.opcodeAt)) := by
              rw [hops, ← hop, encodeWith, List.cons_append, List.append_assoc]
      all_goals cases h
    obtain ⟨rest, hdec⟩ := hrest
    rw [State.fetchWith_of_decodeWith hm hdec] at h
    cases h
    exact ⟨⟨rest, hdec⟩, rfl⟩
  · rintro ⟨⟨rest, hdec⟩, rfl⟩
    exact State.fetchWith_of_decodeWith hm hdec

theorem State.fetch_eq_run {s u : State} {i : Instr} :
    s.fetch = .run i u ↔ (∃ rest, decode s.bytesFrom = .ok i rest) ∧ u = s.latch i.operandBytes :=
  State.fetchWith_eq_run opcodeMap_valid

/-- The opcode byte of the instruction a fetch runs is its row's. -/
theorem State.opcodeAt_of_fetch {s u : State} {i : Instr} (h : s.fetch = .run i u) :
    s.opcodeAt = Config.opcodeMap i.mnemonic := by
  obtain ⟨⟨rest, hdec⟩, -⟩ := State.fetch_eq_run.1 h
  exact State.opcodeAt_of_bytesFrom ((decodeWith_eq_ok opcodeMap_valid).1 hdec)

/-- Everything a step can do: nothing while not RUNNING, else a fault of the fetch, or the fetched instruction run with
its bytes latched. -/
theorem step_cases {s t : State} (h : step s = .next t) :
    (s.status ≠ .running ∧ t = s) ∨
      s.status = .running ∧ (s.fetch = .stop t ∨
        ∃ i, s.fetch = .run i (s.latch i.operandBytes) ∧ exec i (s.latch i.operandBytes) = .next t) := by
  by_cases hs : s.status = .running
  · refine .inr ⟨hs, ?_⟩
    rw [step_running hs] at h
    cases hf : s.fetch with
    | run i u =>
      rw [hf] at h
      obtain ⟨-, rfl⟩ := State.fetch_eq_run.1 hf
      exact .inr ⟨i, rfl, h⟩
    | stop u =>
      rw [hf] at h
      cases h
      exact .inl rfl
  · rw [step_notRunning hs] at h
    cases h
    exact .inl ⟨hs, rfl⟩

end Sys2Proof.Machine
end

section
/-! PROOFS. The fault records the spec can produce (60 R201 to R205), kind by kind. -/

namespace Sys2Proof.Machine

theorem byteDetail_toNat (b : Byte) : (byteDetail b).toNat = b.toNat := by
  have := b.isLt
  simp only [byteDetail, BitVec.toNat_setWidth]
  omega

theorem addressDetail_toNat {a : Nat} (h : a < 512) : (addressDetail a).toNat = a := by
  simp only [addressDetail, BitVec.toNat_ofNat]
  omega

theorem FaultRecord.possible_badRegister {pc op a : Byte} (h : 7 < a.toNat) :
    FaultRecord.Possible ⟨.badRegister, pc, op, some (byteDetail a)⟩ := by
  have hd := byteDetail_toNat a
  have := a.isLt
  simp only [FaultRecord.Possible]
  omega

theorem FaultRecord.possible_stackUnderflow {pc op b : Byte} (h : Config.stackEmpty.toNat ≤ b.toNat)
    (hop : op = Config.opcodeMap .pop ∨ op = Config.opcodeMap .ret) :
    FaultRecord.Possible ⟨.stackUnderflow, pc, op, some (byteDetail b)⟩ := by
  have hd := byteDetail_toNat b
  have := b.isLt
  exact ⟨hd ▸ h, by omega, hop⟩

theorem FaultRecord.possible_addressOutOfRange {pc op : Byte} {a : Nat} (hlow : 256 ≤ a) (hhigh : a ≤ 258) :
    FaultRecord.Possible ⟨.addressOutOfRange, pc, op, some (addressDetail a)⟩ := by
  have hd := addressDetail_toNat (a := a) (by omega)
  simp only [FaultRecord.Possible]
  omega

/-- A fetch that stops has raised a possible fault in the state with some of the bytes latched. -/
theorem State.fetch_eq_stop {s t : State} (h : s.fetch = .stop t) :
    ∃ bs k d, t = (s.latch bs).raise k d ∧ FaultRecord.Possible ⟨k, s.pc, s.opcodeAt, d⟩ := by
  rcases s.fetch_cases with ⟨hnone, e⟩ | ⟨m, -, ⟨-, e⟩ | ⟨-, hp, e⟩ | ⟨-, -, e⟩ | ⟨-, hp, hq, e⟩ | ⟨-, -, e⟩⟩ <;>
    rw [e] at h <;> cases h
  case inl => exact ⟨[], .decodeError, none, rfl, hnone⟩
  case inr.inr.inl | inr.inr.inr.inr.inl =>
    exact ⟨_, _, _, rfl, FaultRecord.possible_addressOutOfRange (by omega) (by omega)⟩

end Sys2Proof.Machine
end

section
/-! PROOFS. The frame of an instruction: registers, latches, output, status (10 R24, R25, R34 to R37, R40). -/

namespace Sys2Proof.Machine

theorem getElem_set_of_ne {x : Vector Byte 8} {r q : RegIndex} (v : Byte) (h : q ≠ r) : (x.set r v)[q] = x[q] := by
  have hne : r.val ≠ q.val := fun e => h (Fin.ext e.symm)
  exact Vector.getElem_set_ne _ _ hne

/-- Settles O34: of the answers an instruction can have, those that write registers write x[A] or R7. -/
theorem registerFrame : Obligations.RegisterFrame := by
  intro i s t r h hr
  have hx : ∀ v : Byte, r ≠ 7 → (s.x.set 7 v)[r] = s.x[r] := fun v h7 => getElem_set_of_ne (r := 7) v h7
  cases exec_cases h
  case ldi | mul | add =>
    rw [State.advance_x]
    exact getElem_set_of_ne _ fun e => hr (e ▸ rfl)
  case push => rw [State.advance_x]; exact hx _ hr
  case pop d _ =>
    obtain ⟨hd, h7⟩ := not_or.1 hr
    rw [State.advance_x]
    dsimp only
    split
    · exact hx _ h7
    · exact (getElem_set_of_ne (r := 7) _ h7).trans (getElem_set_of_ne _ fun e => hd (e ▸ rfl))
  case call | ret => exact hx _ hr
  case prn | cmp | jeqNotTaken | jneNotTaken => simp
  all_goals rfl

/-- Settles O36: no update an instruction makes touches the latches, and `emit` is PRN's alone. -/
theorem latchAndOutputFrame : Obligations.LatchAndOutputFrame := by
  intro i s t h
  cases exec_cases h
  case prn r =>
    exact ⟨State.advance_ir .., State.advance_opA .., State.advance_opB .., State.advance_draws ..,
      fun hne => absurd rfl (hne _), .inr ⟨s.reg r, State.advance_out ..⟩⟩
  all_goals simp

/-- The status after an instruction `i` that began in `s` and ended in `t`: as it was, HALTED by HLT, or a fault that
names the instruction's pc and opcode and that the spec can produce where the opcode is that of `i`'s row. -/
def StatusAfter (i : Instr) (s t : State) : Prop :=
  t.status = s.status ∨ (i = .hlt ∧ t.status = .halted) ∨
    ∃ k d, t.status = .fault ⟨k, s.pc, s.ir, d⟩ ∧ t.pc = s.pc ∧
      (s.ir = Config.opcodeMap i.mnemonic → FaultRecord.Possible ⟨k, s.pc, s.ir, d⟩)

theorem statusAfter_raise {i : Instr} {s : State} {k : FaultKind} {d : Option Detail}
    (h : s.ir = Config.opcodeMap i.mnemonic → FaultRecord.Possible ⟨k, s.pc, s.ir, d⟩) :
    StatusAfter i s (s.raise k d) :=
  .inr (.inr ⟨k, d, rfl, rfl, h⟩)

/-- The advance, by at most two operand bytes, from a state with the instruction's status, pc and opcode. -/
theorem statusAfter_advance {i : Instr} {s u : State} {n : Nat} (hn : n ≤ 2) (hst : u.status = s.status)
    (hpc : u.pc = s.pc) (hir : u.ir = s.ir) : StatusAfter i s (u.advance n) := by
  rcases u.advance_status n with ⟨hsame, -⟩ | ⟨hfault, hstays, hpast⟩
  · exact .inl (hsame.trans hst)
  · have := s.pc.isLt
    rw [hpc] at hpast
    rw [hpc, hir] at hfault
    exact .inr (.inr ⟨_, _, hfault, hstays.trans hpc, fun _ =>
      FaultRecord.possible_addressOutOfRange (by omega) (by omega)⟩)

theorem exec_status {i : Instr} {s t : State} (h : exec i s = .next t) : StatusAfter i s t := by
  cases exec_cases h
  case hlt => exact .inr (.inl ⟨rfl, rfl⟩)
  case badRegister a ha =>
    have hbad : 7 < a.toNat := by simpa using List.find?_some ha
    exact statusAfter_raise fun _ => FaultRecord.possible_badRegister hbad
  case pushOverflow => exact statusAfter_raise fun hir => ⟨rfl, .inl hir⟩
  case callOverflow => exact statusAfter_raise fun hir => ⟨rfl, .inr hir⟩
  case popUnderflow hsp => exact statusAfter_raise fun hir => FaultRecord.possible_stackUnderflow hsp (.inl hir)
  case retUnderflow hsp => exact statusAfter_raise fun hir => FaultRecord.possible_stackUnderflow hsp (.inr hir)
  case callOutOfRange hp =>
    have := s.pc.isLt
    exact statusAfter_raise fun _ => FaultRecord.possible_addressOutOfRange (by omega) (by omega)
  case call | ret | jmp | jeqTaken | jneTaken => exact .inl rfl
  case ldi | prn | mul | add | cmp | push | pop | jeqNotTaken | jneNotTaken =>
    exact statusAfter_advance (by decide) rfl rfl rfl

/-- Settles O37: the status frame is `exec_status` without the fault record's possibility. -/
theorem statusFrame : Obligations.StatusFrame := fun _ _ _ h =>
  (exec_status h).imp_right (.imp_right fun ⟨k, d, hst, hpc, _⟩ => ⟨k, d, hst, hpc⟩)

end Sys2Proof.Machine
end

section
/-! PROOFS. The machine's invariant, at reset and under every step (10 R30, R36, 60 R201 to R210). -/

namespace Sys2Proof.Machine

theorem aluCompare_exclusive (a b : Byte) : (aluCompare a b).exclusive = true := by
  rw [aluCompare_eq]
  split
  · rfl
  · split <;> rfl

/-- CMP alone writes the flags, with the result of a comparison (10 R30). -/
theorem exec_keeps_exclusive {i : Instr} {s t : State} (h : exec i s = .next t) (hs : s.fl.exclusive = true) :
    t.fl.exclusive = true := by
  cases exec_cases h
  case cmp => rw [State.advance_fl]; exact aluCompare_exclusive _ _
  case ldi | prn | mul | add | push | pop | jeqNotTaken | jneNotTaken => rw [State.advance_fl]; exact hs
  all_goals exact hs

/-- PUSH and CALL alone write memory, at an address below SP. -/
theorem exec_keeps_mem_wf {i : Instr} {s t : State} (h : exec i s = .next t) (hs : Memory.wf s.mem = true) :
    Memory.wf t.mem = true := by
  have hlt : s.x[7].toNat - 1 < 256 := by have := s.x[7].isLt; omega
  cases exec_cases h
  case push => rw [State.advance_mem]; exact Memory.wf_write _ hs hlt
  case call => exact Memory.wf_write _ hs hlt
  case ldi | prn | mul | add | cmp | pop | jeqNotTaken | jneNotTaken => rw [State.advance_mem]; exact hs
  all_goals exact hs

theorem State.statusAgrees_of_running {s : State} (h : s.status = .running) : s.StatusAgrees := by
  simp [State.StatusAgrees, h]

theorem State.statusAgrees_of_halted {s : State} (h : s.status = .halted) (hir : s.ir = Config.opcodeMap .hlt) :
    s.StatusAgrees := by
  simp [State.StatusAgrees, h, hir]

theorem State.statusAgrees_of_fault {s : State} {k : FaultKind} {pc op : Byte} {d : Option Detail}
    (h : s.status = .fault ⟨k, pc, op, d⟩) (hpc : s.pc = pc) (hir : s.ir = op)
    (hposs : FaultRecord.Possible ⟨k, pc, op, d⟩) : s.StatusAgrees := by
  simp [State.StatusAgrees, h, hpc, hir, hposs]

/-- An instruction that runs with its row's opcode in `ir` leaves a status that agrees with `ir` and the pc. -/
theorem exec_statusAgrees {i : Instr} {s t : State} (h : exec i s = .next t) (hs : s.status = .running)
    (hrow : s.ir = Config.opcodeMap i.mnemonic) : t.StatusAgrees := by
  obtain ⟨hir, -⟩ := latchAndOutputFrame i s t h
  rcases exec_status h with hsame | ⟨rfl, hhalt⟩ | ⟨k, d, hfault, hpc, hposs⟩
  · exact State.statusAgrees_of_running (hsame.trans hs)
  · exact State.statusAgrees_of_halted hhalt (hir.trans hrow)
  · exact State.statusAgrees_of_fault hfault hpc hir (hposs hrow)

/-- Settles O46: the reset memory is in canonical form, no flag is set and the status is LOAD. -/
theorem invariantAtReset : Obligations.InvariantAtReset := ⟨State.reset_mem_wf, rfl, trivial⟩

/-- Settles O47: a fault of the fetch is possible and changes only the latches and the status; an instruction runs with
its row's opcode latched, and each part of the invariant is kept by `exec`. -/
theorem stepKeepsTheInvariant : Obligations.StepKeepsTheInvariant := by
  intro s t ⟨hmem, hfl, hagrees⟩ h
  rcases step_cases h with ⟨-, rfl⟩ | ⟨hs, hstop | ⟨i, hf, hexec⟩⟩
  · exact ⟨hmem, hfl, hagrees⟩
  · obtain ⟨bs, k, d, rfl, hposs⟩ := State.fetch_eq_stop hstop
    exact ⟨hmem, hfl, State.statusAgrees_of_fault rfl rfl rfl hposs⟩
  · exact ⟨exec_keeps_mem_wf hexec hmem, exec_keeps_exclusive hexec hfl,
      exec_statusAgrees hexec hs (State.opcodeAt_of_fetch hf)⟩

end Sys2Proof.Machine
end

section
/-! PROOFS. The output history over the host's actions, and what `rst` leaves (10 R37, R38, 70 R230). -/

namespace Sys2Proof.Machine

theorem step_out_prefix {s t : State} (h : step s = .next t) : s.out <+: t.out := by
  rcases step_cases h with ⟨-, rfl⟩ | ⟨-, hstop | ⟨i, -, hexec⟩⟩
  · exact List.prefix_rfl
  · obtain ⟨bs, k, d, rfl, -⟩ := State.fetch_eq_stop hstop
    exact List.prefix_rfl
  · obtain ⟨-, -, -, -, -, hout | ⟨v, hout⟩⟩ := latchAndOutputFrame _ _ _ hexec
    · rw [hout, State.latch_out]
    · rw [hout, State.latch_out]
      exact List.prefix_append _ _

@[simp] theorem State.loadByte_out (s : State) (a v : Byte) : (s.loadByte a v).out = s.out := by
  unfold State.loadByte; split <;> rfl

@[simp] theorem State.start_out (s : State) : s.start.out = s.out := by
  unfold State.start; split <;> rfl

theorem act_out_prefix {a : HostAction} {s t : State} (ha : a ≠ .rst) (h : act a s = .next t) : s.out <+: t.out := by
  cases a with
  | rst => exact absurd rfl ha
  | load b v => cases h; rw [State.loadByte_out]
  | start => cases h; rw [State.start_out]
  | stepReq => exact step_out_prefix h

/-- A sequence of actions answers a state exactly if its first does and the others do from there. -/
theorem actAll_cons {a : HostAction} {as : List HostAction} {s t : State} :
    actAll (a :: as) s = .next t ↔ ∃ u, act a s = .next u ∧ actAll as u = .next t := by
  rw [actAll]
  cases act a s <;> simp

/-- Settles O52: by induction on the actions, each of which only adds to the output history. -/
theorem outputOnlyGrows : Obligations.OutputOnlyGrows := by
  intro hs
  induction hs with
  | nil => intro s t _ h; cases h; exact List.prefix_rfl
  | cons a as ih =>
    intro s t hrst h
    obtain ⟨ha, has⟩ := List.ne_and_not_mem_of_not_mem_cons hrst
    obtain ⟨u, hact, hall⟩ := actAll_cons.1 h
    exact (act_out_prefix ha.symm hact).trans (ih u t has hall)

theorem State.reset_getElem_x (r : RegIndex) : State.reset.x[r] = if r = 7 then 0xF4 else 0x00 := by
  revert r; decide

/-- Settles O54: `rst` differs from the reset state in the model's own fetch counter alone. -/
theorem resetValues : Obligations.ResetValues := fun _ =>
  ⟨State.reset_getElem_x, rfl, rfl, Memory.read_nil, rfl, rfl⟩

end Sys2Proof.Machine
end

section
/-! PROOFS. A register an instruction does not name has no effect on it (10 R24, R25, 92 D16): the fetch, the operand
check, the handlers and the end of a step commute with writing it. -/

namespace Sys2Proof.Machine

/-- What a handler answers, with the state it leaves changed by `f`. -/
def Effect.mapState (f : State → State) : Effect → Effect
  | .raises k d => .raises k d
  | .done s c => .done (f s) c

@[simp] theorem Effect.mapState_raises (f : State → State) (k : FaultKind) (d : Detail) :
    (Effect.raises k d).mapState f = .raises k d := rfl
@[simp] theorem Effect.mapState_done (f : State → State) (s : State) (c : Control) :
    (Effect.done s c).mapState f = .done (f s) c := rfl
@[simp] theorem Effect.mapState_ite (f : State → State) (p : Prop) [Decidable p] (d e : Effect) :
    (if p then d else e).mapState f = if p then d.mapState f else e.mapState f := apply_ite (Effect.mapState f) p d e

/-- What a fetch answers, with the state it leaves changed by `f`. -/
def Fetched.mapState (f : State → State) : Fetched → Fetched
  | .run i s => .run i (f s)
  | .stop s => .stop (f s)

section
variable (s : State) (q : RegIndex) (v : Byte)

theorem State.fetch_setReg : (s.setReg q v).fetch = s.fetch.mapState (·.setReg q v) := by
  have hfetch : (s.setReg q v).opcodeAt :: (s.setReg q v).operandsAt = s.opcodeAt :: s.operandsAt := rfl
  simp only [State.fetch, State.fetchWith, hfetch]
  split <;> rfl

theorem State.advance_setReg (n : Nat) : (s.setReg q v).advance n = (s.advance n).setReg q v := by
  rcases s.advance_cases n with ⟨hle, e⟩ | ⟨hpast, e⟩ <;> rw [e]
  · exact (s.setReg q v).advance_inRange hle
  · exact (s.setReg q v).advance_past hpast

theorem State.finish_setReg (n : Nat) (e : Effect) :
    (s.setReg q v).finish n (e.mapState (·.setReg q v)) = (s.finish n e).setReg q v := by
  rcases e with ⟨k, d⟩ | ⟨t, _ | a | _⟩
  case done.implicitAdvance => exact t.advance_setReg q v n
  all_goals rfl

theorem State.withReg_setReg {a : Byte} {f g : RegIndex → State} (h : ∀ r, a = regByte r → g r = (f r).setReg q v) :
    (s.setReg q v).withReg a g = (s.withReg a f).setReg q v :=
  State.withReg_rel (fun t u => u = t.setReg q v) (fun _ _ => rfl) h

end

section
variable {s : State} {q r : RegIndex} {v : Byte}

theorem State.reg_setReg_of_ne (h : r ≠ q) : (s.setReg q v).reg r = s.reg r := by rw [State.reg_setReg, if_neg h]

theorem State.setReg_comm (h : r ≠ q) (w : Byte) : (s.setReg q v).setReg r w = (s.setReg r w).setReg q v := by
  have hne : q.val ≠ r.val := fun e => h (Fin.ext e.symm)
  simp only [State.setReg, Vector.set_comm _ _ hne]

theorem State.sp_setReg_of_ne (hq : q ≠ 7) : (s.setReg q v).sp = s.sp := State.reg_setReg_of_ne hq.symm

theorem State.spAtBottom_setReg (hq : q ≠ 7) : (s.setReg q v).spAtBottom = s.spAtBottom := by
  rw [State.spAtBottom, State.sp_setReg_of_ne hq, State.spAtBottom]

theorem State.spEmpty_setReg (hq : q ≠ 7) (empty : Byte) : (s.setReg q v).spEmpty empty = s.spEmpty empty := by
  rw [State.spEmpty, State.sp_setReg_of_ne hq, State.spEmpty]

theorem State.spDec_setReg (hq : q ≠ 7) : (s.setReg q v).spDec = s.spDec := by
  rw [State.spDec, State.sp_setReg_of_ne hq, State.spDec]

theorem State.spInc_setReg (hq : q ≠ 7) : (s.setReg q v).spInc = s.spInc := by
  rw [State.spInc, State.sp_setReg_of_ne hq, State.spInc]

theorem State.readTop_setReg (hq : q ≠ 7) : (s.setReg q v).readTop = s.readTop := by
  rw [State.readTop, State.sp_setReg_of_ne hq, State.setReg_mem, State.readTop]

theorem State.writeTop_setReg (hq : q ≠ 7) (w : Byte) :
    (s.setReg q v).writeTop w = (s.writeTop w).setReg q v := by
  rw [State.writeTop, State.sp_setReg_of_ne hq]
  rfl

@[simp] theorem State.returnAddress_setReg : (s.setReg q v).returnAddress = s.returnAddress := rfl

theorem handlePush_setReg (hq : q ≠ 7) (hr : r ≠ q) :
    handlePush r (s.setReg q v) = (handlePush r s).mapState (·.setReg q v) := by
  simp [handlePush, State.sp_setReg_of_ne hq, State.spAtBottom_setReg hq, State.spDec_setReg hq,
    State.setReg_comm hq.symm, State.reg_setReg_of_ne hr, State.writeTop_setReg hq]

theorem handlePop_setReg (hq : q ≠ 7) (hr : r ≠ q) (empty : Byte) :
    handlePop empty r (s.setReg q v) = (handlePop empty r s).mapState (·.setReg q v) := by
  simp [handlePop, State.sp_setReg_of_ne hq, State.spEmpty_setReg hq, State.spInc_setReg hq, State.readTop_setReg hq,
    State.setReg_comm hr, State.setReg_comm hq.symm]

theorem handleCall_setReg (hq : q ≠ 7) (hr : r ≠ q) :
    handleCall r (s.setReg q v) = (handleCall r s).mapState (·.setReg q v) := by
  simp [handleCall, State.sp_setReg_of_ne hq, State.spAtBottom_setReg hq, State.spDec_setReg hq,
    State.setReg_comm hq.symm, State.reg_setReg_of_ne hr, State.writeTop_setReg hq]

theorem handleRet_setReg (hq : q ≠ 7) (empty : Byte) :
    handleRet empty (s.setReg q v) = (handleRet empty s).mapState (·.setReg q v) := by
  simp [handleRet, State.sp_setReg_of_ne hq, State.spEmpty_setReg hq, State.spInc_setReg hq,
    State.readTop_setReg hq, State.setReg_comm hq.symm]

theorem handleBranch_setReg (hr : r ≠ q) (taken : Bool) :
    handleBranch taken r (s.setReg q v) = (handleBranch taken r s).mapState (·.setReg q v) := by
  simp only [handleBranch, Effect.mapState_done, State.reg_setReg_of_ne hr]

/-- What MUL and ADD do, for any operation of the alu. -/
theorem aluResult_setReg {p : RegIndex} (f : Byte → Byte → Byte) (hr : r ≠ q) (hp : p ≠ q) :
    (s.setReg q v).setReg r (f ((s.setReg q v).reg r) ((s.setReg q v).reg p)) =
      (s.setReg r (f (s.reg r) (s.reg p))).setReg q v := by
  rw [State.reg_setReg_of_ne hr, State.reg_setReg_of_ne hp, State.setReg_comm hr]

/-- An instruction with a register operand commutes with writing a register if its handler does. -/
theorem State.withReg_finish_setReg {n : Nat} {a : Byte} {f g : RegIndex → Effect}
    (h : ∀ r, a = regByte r → g r = (f r).mapState (·.setReg q v)) :
    ((s.setReg q v).withReg a fun r => (s.setReg q v).finish n (g r)) =
      (s.withReg a fun r => s.finish n (f r)).setReg q v :=
  s.withReg_setReg q v fun r ha => by rw [h r ha, State.finish_setReg]

/-- An instruction that does not name a register, other than R7, does the same whatever that register holds. -/
theorem exec_setReg {i : Instr} {t : State} (hq : q ≠ 7) (hi : regByte q ∉ i.regOperands)
    (h : exec i s = .next t) : exec i (s.setReg q v) = .next (t.setReg q v) := by
  have hne : ∀ {a : Byte} {r : RegIndex}, a ∈ i.regOperands → a = regByte r → r ≠ q :=
    fun hmem ha e => hi (e ▸ ha ▸ hmem)
  suffices hboth : ∃ u, exec i s = .next u ∧ exec i (s.setReg q v) = .next (u.setReg q v) by
    obtain ⟨u, hu, huv⟩ := hboth
    cases h.symm.trans hu
    exact huv
  cases i with
  | hlt => exact ⟨_, rfl, rfl⟩
  | ldi a imm =>
    refine ⟨_, rfl, congrArg _ (State.withReg_finish_setReg fun r ha => ?_)⟩
    rw [State.setReg_comm (hne (.head _) ha)]
    rfl
  | prn a =>
    refine ⟨_, rfl, congrArg _ (State.withReg_finish_setReg fun r ha => ?_)⟩
    rw [State.reg_setReg_of_ne (hne (.head _) ha)]
    rfl
  | mul a b =>
    refine ⟨_, rfl, congrArg _ (s.withReg_setReg q v fun r ha => State.withReg_finish_setReg fun p hb => ?_)⟩
    rw [aluResult_setReg aluMul (hne (.head _) ha) (hne (.tail _ (.head _)) hb)]
    rfl
  | add a b =>
    refine ⟨_, rfl, congrArg _ (s.withReg_setReg q v fun r ha => State.withReg_finish_setReg fun p hb => ?_)⟩
    rw [aluResult_setReg aluAdd (hne (.head _) ha) (hne (.tail _ (.head _)) hb)]
    rfl
  | cmp a b =>
    refine ⟨_, rfl, congrArg _ (s.withReg_setReg q v fun r ha => State.withReg_finish_setReg fun p hb => ?_)⟩
    rw [State.reg_setReg_of_ne (hne (.head _) ha), State.reg_setReg_of_ne (hne (.tail _ (.head _)) hb)]
    rfl
  | push a =>
    exact ⟨_, rfl, congrArg _ (State.withReg_finish_setReg fun _ ha => handlePush_setReg hq (hne (.head _) ha))⟩
  | pop a =>
    exact ⟨_, rfl, congrArg _ (State.withReg_finish_setReg fun _ ha => handlePop_setReg hq (hne (.head _) ha) _)⟩
  | call a =>
    exact ⟨_, rfl, congrArg _ (State.withReg_finish_setReg fun _ ha => handleCall_setReg hq (hne (.head _) ha))⟩
  | ret =>
    refine ⟨_, rfl, congrArg Host.Outcome.next ?_⟩
    rw [handleRet_setReg hq, State.finish_setReg]
  | jmp a =>
    refine ⟨_, rfl, congrArg _ (State.withReg_finish_setReg fun r ha => ?_)⟩
    rw [State.reg_setReg_of_ne (hne (.head _) ha)]
    rfl
  | jeq a =>
    exact ⟨_, rfl, congrArg _ (State.withReg_finish_setReg fun _ ha => handleBranch_setReg (hne (.head _) ha) _)⟩
  | jne a =>
    exact ⟨_, rfl, congrArg _ (State.withReg_finish_setReg fun _ ha => handleBranch_setReg (hne (.head _) ha) _)⟩

end

/-- The registers an instruction writes are R7 and those its register operands name. -/
theorem eq_seven_or_named_of_writesRegister {i : Instr} {q : RegIndex} (h : WritesRegister i q) :
    q = 7 ∨ regByte q ∈ i.regOperands := by
  cases i
  case ldi | mul | add =>
    obtain rfl := h
    exact .inr (.head _)
  case pop =>
    obtain rfl | h7 := h
    · exact .inr (.head _)
    · exact .inl h7
  case push | call | ret => exact .inl h
  all_goals cases h

/-- Settles O40: fetch and `exec` commute with writing a register the instruction does not name, and by `registerFrame`
the instruction does not write it. -/
theorem unnamedRegisterIsInert : Obligations.UnnamedRegisterIsInert := by
  intro s t q v hq hunnamed h
  change t.x[q] = s.x[q] ∧ step (s.setReg q v) = .next (t.setReg q v)
  rcases step_cases h with ⟨hs, rfl⟩ | ⟨hs, hstop | ⟨i, hf, hexec⟩⟩
  · exact ⟨rfl, step_notRunning hs⟩
  · have hs' : (s.setReg q v).status = .running := hs
    rw [step_running hs', State.fetch_setReg, hstop]
    obtain ⟨bs, k, d, rfl, -⟩ := State.fetch_eq_stop hstop
    exact ⟨rfl, rfl⟩
  · have hs' : (s.setReg q v).status = .running := hs
    obtain ⟨⟨rest, hdec⟩, -⟩ := State.fetch_eq_run.1 hf
    have hi := hunnamed i rest hdec
    have hkept := registerFrame i _ t q hexec fun hw => (eq_seven_or_named_of_writesRegister hw).elim hq hi
    rw [step_running hs', State.fetch_setReg, hf]
    exact ⟨hkept, exec_setReg hq hi hexec⟩

end Sys2Proof.Machine
end

section
/-! PROOFS. What an instruction and a step write to memory (20 R52). -/

namespace Sys2Proof.Machine

/-- PUSH and CALL alone have a store address. -/
theorem storeAddress_eq_some {i : Instr} {s : State} {a : Nat} (h : storeAddress i s = some a) :
    ∃ r, i = .push r ∨ i = .call r := by
  cases i
  case push r => exact ⟨r, .inl rfl⟩
  case call r => exact ⟨r, .inr rfl⟩
  all_goals cases h

/-- Everything an instruction can do to memory: nothing, or one byte written at its store address. -/
theorem exec_mem {i : Instr} {s t : State} (h : exec i s = .next t) :
    t.mem = s.mem ∨ ∃ a v, storeAddress i s = some a ∧ t.mem = Memory.write s.mem a v := by
  cases exec_cases h
  case push r hsp =>
    exact .inr ⟨_, _, congrArg some (State.spDec_toNat hsp), State.advance_mem ..⟩
  case call r hp hsp => exact .inr ⟨_, _, congrArg some (State.spDec_toNat hsp), rfl⟩
  case ldi | prn | mul | add | cmp | pop | jeqNotTaken | jneNotTaken => exact .inl (State.advance_mem ..)
  all_goals exact .inl rfl

/-- Settles O35: a write leaves every other address as it was. -/
theorem memoryFrame : Obligations.MemoryFrame := by
  intro i s t a h hne
  rcases exec_mem h with hmem | ⟨b, v, hb, hmem⟩ <;> rw [hmem]
  exact Memory.read_write_other _ _ fun e => hne (e ▸ hb)

/-- An instruction that is neither PUSH nor CALL leaves memory as it was. -/
theorem exec_mem_of_not_store {i : Instr} {s t : State} (h : exec i s = .next t)
    (hi : ∀ a, i ≠ .push a ∧ i ≠ .call a) : t.mem = s.mem := by
  rcases exec_mem h with hmem | ⟨b, v, hb, -⟩
  · exact hmem
  · obtain ⟨r, hr⟩ := storeAddress_eq_some hb
    exact (hr.elim (hi r).1 (hi r).2).elim

/-- A step leaves every byte as it was but the one at the store address of the instruction at the pc. -/
theorem step_read_of_not_store {s u : State} {a : Nat} (h : step s = .next u)
    (ha : ∀ i rest, decode s.bytesFrom = .ok i rest → storeAddress i s ≠ some a) :
    Memory.read u.mem a = Memory.read s.mem a := by
  rcases step_cases h with ⟨-, rfl⟩ | ⟨-, hstop | ⟨i, hf, hexec⟩⟩
  · rfl
  · obtain ⟨bs, k, d, rfl, -⟩ := State.fetch_eq_stop hstop
    rfl
  · obtain ⟨⟨rest, hdec⟩, -⟩ := State.fetch_eq_run.1 hf
    exact memoryFrame i (s.latch i.operandBytes) u a hexec (ha i rest hdec)

end Sys2Proof.Machine
end

section
/-! PROOFS. Of two memories an instruction sees no difference but in the byte POP and RET read (20 R52): the end of a
step, the operand check and the fetch commute with putting another memory in the state. -/

namespace Sys2Proof.Machine

/-- The state with another memory. -/
def State.withMem (s : State) (m : Memory) : State := { s with mem := m }

/-- A handler's answer leaves memory `m` as it is. -/
def Effect.KeepsMem (m : Memory) : Effect → Prop
  | .raises _ _ => True
  | .done t _ => t.mem = m

/-- `t`, reached from `s`, and `u`, reached from `s` with memory `m`, are equal but for memory, and the same was written
to `s.mem` and to `m`. -/
def SameEffect (s : State) (m : Memory) (t u : State) : Prop :=
  u.withMem t.mem = t ∧ SameWrite s.mem t.mem m u.mem (s.x[7].toNat - 1)

theorem State.advance_withMem (s : State) (m : Memory) (n : Nat) :
    (s.withMem m).advance n = (s.advance n).withMem m := by
  rcases s.advance_cases n with ⟨hle, e⟩ | ⟨hpast, e⟩ <;> rw [e]
  · exact (s.withMem m).advance_inRange hle
  · exact (s.withMem m).advance_past hpast

section
variable {s t u : State} {m : Memory}

theorem SameEffect.of_mem_eq (h : t.mem = s.mem) : SameEffect s m t (t.withMem m) :=
  ⟨rfl, .inl ⟨h, rfl⟩⟩

theorem SameEffect.of_write (v : Byte) :
    SameEffect s m (t.withMem (Memory.write s.mem (s.x[7].toNat - 1) v))
      (t.withMem (Memory.write m (s.x[7].toNat - 1) v)) :=
  ⟨rfl, .inr ⟨v, rfl, rfl⟩⟩

theorem SameEffect.advance (h : SameEffect s m t u) (n : Nat) : SameEffect s m (t.advance n) (u.advance n) := by
  obtain ⟨hsame, hwrite⟩ := h
  refine ⟨?_, by simpa using hwrite⟩
  rw [State.advance_mem, ← State.advance_withMem, hsame]

/-- A register operand adds nothing that depends on memory. -/
theorem SameEffect.withReg {a : Byte} {f g : RegIndex → State} (h : ∀ r, SameEffect s m (f r) (g r)) :
    SameEffect s m (s.withReg a f) ((s.withMem m).withReg a g) :=
  State.withReg_rel (SameEffect s m) (fun _ _ => .of_mem_eq rfl) fun r _ => h r

theorem sameEffect_handlePush (r : RegIndex) :
    SameEffect s m (s.finish 1 (handlePush r s)) ((s.withMem m).finish 1 (handlePush r (s.withMem m))) := by
  by_cases hsp : s.x[7] = 0
  · rw [handlePush_overflow r hsp, handlePush_overflow (s := s.withMem m) r hsp]
    exact .of_mem_eq rfl
  · rw [handlePush_done r hsp, handlePush_done (s := s.withMem m) r hsp]
    exact .advance (.of_write (t := { s with x := s.x.set 7 (s.x[7] - 1) }) _) 1

theorem sameEffect_handleCall (r : RegIndex) :
    SameEffect s m (s.finish 1 (handleCall r s)) ((s.withMem m).finish 1 (handleCall r (s.withMem m))) := by
  by_cases hp : s.pc.toNat ≤ 253
  · by_cases hsp : s.x[7] = 0
    · rw [handleCall_overflow r hp hsp, handleCall_overflow (s := s.withMem m) r hp hsp]
      exact .of_mem_eq rfl
    · rw [handleCall_done r hp hsp, handleCall_done (s := s.withMem m) r hp hsp]
      exact .of_write (t := { s with
        x := s.x.set 7 (s.x[7] - 1), pc := if r = 7 then s.x[7] - 1 else s.x[r] }) _
  · have hpast : 254 ≤ s.pc.toNat := by omega
    rw [handleCall_outOfRange r hpast, handleCall_outOfRange (s := s.withMem m) r hpast]
    exact .of_mem_eq rfl

theorem handlePop_withMem (hread : Memory.read m s.x[7].toNat = Memory.read s.mem s.x[7].toNat) (empty : Byte)
    (r : RegIndex) :
    handlePop empty r (s.withMem m) = (handlePop empty r s).mapState (·.withMem m) := by
  have htop : (s.withMem m).readTop = s.readTop := hread
  rw [handlePop, htop, handlePop, Effect.mapState_ite]
  rfl

theorem handleRet_withMem (hread : Memory.read m s.x[7].toNat = Memory.read s.mem s.x[7].toNat) (empty : Byte) :
    handleRet empty (s.withMem m) = (handleRet empty s).mapState (·.withMem m) := by
  have htop : (s.withMem m).readTop = s.readTop := hread
  rw [handleRet, htop, handleRet, Effect.mapState_ite]
  rfl

/-- A handler that leaves memory as it was, and whose answer does not depend on it, has the same effect on both. -/
theorem SameEffect.finish {e : Effect} (he : e.KeepsMem s.mem) (n : Nat) :
    SameEffect s m (s.finish n e) ((s.withMem m).finish n (e.mapState (·.withMem m))) := by
  rcases e with ⟨k, d⟩ | ⟨t, _ | a | _⟩
  case done.implicitAdvance => exact .advance (.of_mem_eq he) n
  case raises => exact .of_mem_eq rfl
  all_goals exact .of_mem_eq he

theorem handlePop_keepsMem (empty : Byte) (r : RegIndex) : (handlePop empty r s).KeepsMem s.mem := by
  unfold handlePop; split
  · trivial
  · rfl

theorem handleRet_keepsMem (empty : Byte) : (handleRet empty s).KeepsMem s.mem := by
  unfold handleRet; split
  · trivial
  · rfl

/-- An instruction does the same to two memories, and with POP and RET only if they hold the same byte at SP. -/
theorem exec_sameEffect {i : Instr} (ht : exec i s = .next t) (hu : exec i (s.withMem m) = .next u)
    (hread : i.mnemonic = .pop ∨ i.mnemonic = .ret →
      Memory.read m s.x[7].toNat = Memory.read s.mem s.x[7].toNat) : SameEffect s m t u := by
  cases i <;> cases ht <;> cases hu
  case hlt => exact .of_mem_eq rfl
  case ldi | prn | jmp | jeq | jne => exact .withReg fun r => .finish (by exact rfl) _
  case mul | add | cmp => exact .withReg fun r => .withReg fun q => .finish (by exact rfl) _
  case push => exact .withReg sameEffect_handlePush
  case pop =>
    refine .withReg fun r => ?_
    rw [handlePop_withMem (hread (.inl rfl))]
    exact .finish (handlePop_keepsMem _ r) _
  case call => exact .withReg sameEffect_handleCall
  case ret =>
    rw [handleRet_withMem (hread (.inr rfl))]
    exact .finish (handleRet_keepsMem _) _

end

/-- A fetch sees no byte of memory but those of the instruction at the pc. -/
theorem State.fetch_withMem {s : State} {m : Memory} (h : s.SameInstruction m) :
    (s.withMem m).fetch = s.fetch.mapState (·.withMem m) := by
  have hop : (s.withMem m).opcodeAt = s.opcodeAt := h 0 (Nat.zero_le _) (by omega)
  have hafter : ∀ k, k ≤ operandCount s.opcodeAt → (s.withMem m).byteAfter k = s.byteAfter k := fun k hk =>
    if_ctx_congr Iff.rfl (fun hpc => congrArg some (h k hk hpc)) fun _ => rfl
  have hops : (s.withMem m).operandsAt = s.operandsAt := by
    unfold State.operandsAt
    rw [hop]
    exact congrArg List.reduceOption (List.map_congr_left fun k hk => hafter (k + 1) (List.mem_range.1 hk))
  have hlatch : ∀ bs, (s.withMem m).latch bs = (s.latch bs).withMem m := fun bs => by
    simp only [State.latch, hop]; rfl
  simp only [State.fetch, State.fetchWith, State.decodeFault, hop, hops, hlatch]
  split <;> rfl

theorem State.opcodeIn_iff {s : State} {m : OpcodeMap} {rows : List Mnemonic} :
    s.opcodeIn m rows = true ↔ ∃ h ∈ rows, m h = s.opcodeAt := by
  simp [State.opcodeIn]

/-- A step does the same to two memories that agree on its instruction's bytes and, for POP and RET, on the byte at
SP. -/
theorem step_sameEffect {s t u : State} {m : Memory} (hs : s.status = .running) (ht : step s = .next t)
    (hu : step (s.withMem m) = .next u) (hinstr : s.SameInstruction m)
    (hread : s.opcodeIn Config.opcodeMap [.pop, .ret] = true →
      Memory.read m s.x[7].toNat = Memory.read s.mem s.x[7].toNat) : SameEffect s m t u := by
  have hs' : (s.withMem m).status = .running := hs
  rw [step_running hs', State.fetch_withMem hinstr] at hu
  rw [step_running hs] at ht
  cases hf : s.fetch with
  | stop v =>
    rw [hf] at ht hu
    cases ht
    cases hu
    obtain ⟨bs, k, d, rfl, -⟩ := State.fetch_eq_stop hf
    exact .of_mem_eq rfl
  | run i v =>
    rw [hf] at ht hu
    obtain ⟨-, rfl⟩ := State.fetch_eq_run.1 hf
    have hop := State.opcodeAt_of_fetch hf
    exact exec_sameEffect (s := s.latch i.operandBytes) ht hu fun hi =>
      hread (State.opcodeIn_iff.2 ⟨i.mnemonic, by simpa using hi, hop.symm⟩)

/-- Of the host's actions but `rst` and a step, the load alone writes memory, and only while LOAD (40 R101). -/
theorem act_mem {a : HostAction} {s t : State} (hstep : a ≠ .stepReq) (hrst : a ≠ .rst) (h : act a s = .next t) :
    t.mem = s.mem ∨ (s.status = .load ∧ ∃ b v, a = .load b v ∧ t.mem = Memory.write s.mem b.toNat v) := by
  cases a with
  | rst => exact absurd rfl hrst
  | stepReq => exact absurd rfl hstep
  | start =>
    cases h
    unfold State.start
    split <;> exact .inl rfl
  | load b v =>
    cases h
    unfold State.loadByte
    split
    next hs => exact .inr ⟨hs, b, v, rfl, rfl⟩
    next => exact .inl rfl

/-- Settles O39: the writers by `exec_mem`, the readers by comparing two memories at `exec` and at the step, and the
host's load. -/
theorem memoryAccessors : Obligations.MemoryAccessors :=
  ⟨fun _ _ _ h hi => exec_mem_of_not_store h hi,
    fun _ _ _ _ _ ht hu hread => exec_sameEffect ht hu hread,
    fun _ _ _ _ hs ht hu hinstr hread => step_sameEffect hs ht hu hinstr hread,
    fun _ _ _ hstep hrst h => act_mem hstep hrst h⟩

end Sys2Proof.Machine
end

section
/-! PROOFS. What a step latches is what memory holds where it fetches (40 R103, R107), so the next fetch sees the byte
that PUSH or CALL has just stored (20 R63, 70 R236). -/

namespace Sys2Proof.Machine

/-- The state a fetch answers, whether it runs an instruction or stops. -/
def Fetched.state : Fetched → State
  | .run _ s => s
  | .stop s => s

theorem State.FetchesOperand.le {s : State} {h : Mnemonic} {k : Nat} (hk : s.FetchesOperand k)
    (hop : Config.opcodeMap h = s.opcodeAt) : k ≤ h.format.operandCount := by
  obtain ⟨g, hg, hle⟩ := hk
  rwa [opcodeMap_valid.1 h g (hop.trans hg.symm)]

/-- Latches filled with the bytes after the opcode, where these exist and the opcode asks for them, hold what memory
holds where the fetch read. -/
theorem State.fetchSees_latch {s : State} {bs : List Byte} (a : Nat)
    (hA : s.pc.toNat + 1 ≤ 255 → s.FetchesOperand 1 → bs[0]? = some (Memory.read s.mem (s.pc.toNat + 1)))
    (hB : s.pc.toNat + 2 ≤ 255 → s.FetchesOperand 2 → bs[1]? = some (Memory.read s.mem (s.pc.toNat + 2))) :
    s.FetchSees (s.latch bs) a (Memory.read s.mem a) := by
  refine ⟨fun ha => ?_, fun ha hle hk => ?_, fun ha hle hk => ?_⟩ <;> subst ha
  · rfl
  · simp [State.latch, hA hle hk]
  · simp [State.latch, hB hle hk]

/-- Whatever a fetch answers, its latches hold what memory holds where it read. -/
theorem State.fetchSees_fetch (s : State) (a : Nat) : s.FetchSees s.fetch.state a (Memory.read s.mem a) := by
  rcases s.fetch_cases with ⟨hnone, e⟩ | ⟨h, hop, hcase⟩
  · rw [e]
    have hno : ∀ k, ¬ s.FetchesOperand k := fun _ ⟨g, hg, _⟩ => hnone g hg
    exact s.fetchSees_latch (bs := []) a (fun _ hk => absurd hk (hno 1)) fun _ hk => absurd hk (hno 2)
  · have hle : ∀ k, s.FetchesOperand k → k ≤ h.format.operandCount := fun _ hk => hk.le hop
    rcases hcase with ⟨hn, e⟩ | ⟨-, hpc, e⟩ | ⟨hn, -, e⟩ | ⟨-, -, hpc, e⟩ | ⟨-, -, e⟩ <;> rw [e]
    · exact s.fetchSees_latch (bs := []) a (fun _ hk => absurd (hle 1 hk) (by omega))
        fun _ hk => absurd (hle 2 hk) (by omega)
    · exact s.fetchSees_latch (bs := []) a (fun hA _ => absurd hA (by omega)) fun hB _ => absurd hB (by omega)
    · exact s.fetchSees_latch (bs := [_]) a (fun _ _ => rfl) fun _ hk => absurd (hle 2 hk) (by omega)
    · exact s.fetchSees_latch (bs := [_]) a (fun _ _ => rfl) fun hB _ => absurd hB (by omega)
    · exact s.fetchSees_latch (bs := [_, _]) a (fun _ _ => rfl) fun _ _ => rfl

/-- Every fetch reads what memory holds: no instruction changes what its fetch has latched. -/
theorem step_fetchSees {s u : State} (hs : s.status = .running) (h : step s = .next u) (a : Nat) :
    s.FetchSees u a (Memory.read s.mem a) := by
  have hsees := s.fetchSees_fetch a
  rcases step_cases h with ⟨hne, -⟩ | ⟨-, hstop | ⟨i, hf, hexec⟩⟩
  · exact absurd hs hne
  · rwa [hstop] at hsees
  · obtain ⟨hir, hA, hB, -⟩ := latchAndOutputFrame _ _ _ hexec
    rw [hf] at hsees
    rwa [State.FetchSees, hir, hA, hB]

/-- The step after a store sees the byte stored, wherever it fetches from that address. -/
theorem step_fetchSees_write {t u : State} {m : Memory} {a : Nat} {v : Byte} (hs : t.status = .running)
    (hmem : t.mem = Memory.write m a v) (h : step t = .next u) : t.FetchSees u a v := by
  have hsees := step_fetchSees hs h a
  rwa [hmem, Memory.read_write_same] at hsees

/-- PUSH of any register where SP is not 0 (43 R171). -/
theorem exec_push_regByte (r : RegIndex) {s : State} (hsp : s.x[7] ≠ 0) :
    exec (.push (regByte r)) s = .next (State.advance { s with
      x := s.x.set 7 (s.x[7] - 1)
      mem := Memory.write s.mem (s.x[7].toNat - 1) (if r = 7 then s.x[7] - 1 else s.x[r]) } 1) := by
  rw [exec, execPush, State.withReg_regByte, handlePush_done r hsp, State.finish_advance]

/-- CALL of any register where SP is not 0 and the return address fits a byte (44 R181). -/
theorem exec_call_regByte (r : RegIndex) {s : State} (hpc : s.pc.toNat ≤ 253) (hsp : s.x[7] ≠ 0) :
    exec (.call (regByte r)) s = .next { s with
      x := s.x.set 7 (s.x[7] - 1)
      mem := Memory.write s.mem (s.x[7].toNat - 1) (s.pc + 2)
      pc := if r = 7 then s.x[7] - 1 else s.x[r] } := by
  rw [exec, execCall, State.withReg_regByte, handleCall_done r hpc hsp, State.finish_jump]

theorem State.advance_status_inRange (s : State) {n : Nat} (h : s.pc.toNat + 1 + n ≤ 255) :
    (s.advance n).status = s.status := by
  rw [s.advance_inRange h]

/-- Settles O44: PUSH and CALL leave a RUNNING core whose memory holds the byte stored, and the next step fetches what
memory holds; a byte stays by `memoryFrame`. -/
theorem nextFetchSeesTheStore : Obligations.NextFetchSeesTheStore := by
  refine ⟨fun r s t u hs hsp hpc hpush hstep => ?_, fun r s t u hs hsp hpc hcall hstep => ?_,
    fun s u a hs hstep => step_fetchSees hs hstep a, fun s u a ha hstep => step_read_of_not_store hstep ha⟩
  · cases (exec_push_regByte r hsp).symm.trans hpush
    refine step_fetchSees_write ?_ (State.advance_mem ..) hstep
    rw [State.advance_status_inRange]
    · exact hs
    · change s.pc.toNat + 1 + 1 ≤ 255
      omega
  · cases (exec_call_regByte r hpc hsp).symm.trans hcall
    exact step_fetchSees_write hs rfl hstep

end Sys2Proof.Machine
end

section
/-! PROOFS. The load port and the load of an image through it (20 R65, 40 R101, 92 D15, D17). -/

namespace Sys2Proof.Machine

section
variable {s : State}

theorem act_load_of_load (h : s.status = .load) (a v : Byte) :
    act (.load a v) s = .next (s.withMem (Memory.write s.mem a.toNat v)) := by
  rw [act, State.loadByte, if_pos h]
  rfl

theorem act_load_of_not_load (h : s.status ≠ .load) (a v : Byte) : act (.load a v) s = .next s := by
  rw [act, State.loadByte, if_neg h]

theorem State.loadImage_of_length_gt {image : List Byte} (h : 256 < image.length) : s.loadImage image = none := if_pos h

theorem State.loadImage_of_load (h : s.status = .load) {image : List Byte} (hlen : image.length ≤ 256) :
    s.loadImage image = some (s.withMem (Memory.writeBytes s.mem 0 image)) := by
  rw [State.loadImage, if_neg (Nat.not_lt.2 hlen), if_pos h]
  rfl

theorem State.loadImage_of_not_load (h : s.status ≠ .load) {image : List Byte} (hlen : image.length ≤ 256) :
    s.loadImage image = some s := by
  rw [State.loadImage, if_neg (Nat.not_lt.2 hlen), if_neg h]

end

/-- The load port used once for each byte, from address `k` up. -/
def loadActionsFrom (k : Nat) (image : List Byte) : List HostAction :=
  (image.zipIdx k).map fun c => .load (BitVec.ofNat 8 c.2) c.1

theorem loadActions_eq (image : List Byte) : loadActions image = loadActionsFrom 0 image := rfl

theorem loadActionsFrom_cons (k : Nat) (v : Byte) (image : List Byte) :
    loadActionsFrom k (v :: image) = .load (BitVec.ofNat 8 k) v :: loadActionsFrom (k + 1) image := rfl

/-- While LOAD the load port, byte by byte, does what `Memory.writeBytes` does. -/
theorem actAll_loadActionsFrom {image : List Byte} {s : State} {k : Nat} (hs : s.status = .load)
    (hlen : k + image.length ≤ 256) :
    actAll (loadActionsFrom k image) s = .next (s.withMem (Memory.writeBytes s.mem k image)) := by
  induction image generalizing s k with
  | nil => rfl
  | cons v image ih =>
    rw [List.length_cons] at hlen
    have hk : k < 256 := by omega
    have haddr : (BitVec.ofNat 8 k).toNat = k := (BitVec.toNat_ofNat ..).trans (Nat.mod_eq_of_lt hk)
    rw [loadActionsFrom_cons, actAll_cons]
    refine ⟨_, act_load_of_load hs _ _, ?_⟩
    have hs' : (s.withMem (Memory.write s.mem k v)).status = .load := hs
    rw [haddr, ih hs' (by omega), Memory.writeBytes, if_pos hk]
    rfl

/-- In any status but LOAD the load port does nothing, however often it is used. -/
theorem actAll_loadActionsFrom_of_not_load {image : List Byte} {s : State} {k : Nat} (hs : s.status ≠ .load) :
    actAll (loadActionsFrom k image) s = .next s := by
  induction image generalizing k with
  | nil => rfl
  | cons v image ih =>
    rw [loadActionsFrom_cons, actAll_cons]
    exact ⟨s, act_load_of_not_load hs _ _, ih⟩

/-- An image placed from address 0 up: its own bytes as far as it reaches, memory as it was after that. -/
theorem Memory.read_writeBytes_zero (m : Memory) {image : List Byte} (hlen : image.length ≤ 256) (a : Nat) :
    Memory.read (Memory.writeBytes m 0 image) a = image[a]?.getD (Memory.read m a) := by
  rw [Memory.read_writeBytes, Nat.zero_add, Nat.sub_zero]
  by_cases ha : a < image.length
  · rw [if_pos (by omega), List.getElem?_eq_getElem ha]
    rfl
  · rw [if_neg (by omega), List.getElem?_eq_none (by omega)]
    rfl

/-- The load of an image is the load port used once for each byte, from address 0 up. -/
theorem actAll_loadActions {s t : State} {image : List Byte} (h : s.loadImage image = some t) :
    actAll (loadActions image) s = .next t := by
  rw [loadActions_eq]
  by_cases hlen : image.length ≤ 256
  · by_cases hs : s.status = .load
    · rw [State.loadImage_of_load hs hlen] at h
      cases h
      exact actAll_loadActionsFrom hs (by omega)
    · rw [State.loadImage_of_not_load hs hlen] at h
      cases h
      exact actAll_loadActionsFrom_of_not_load hs
  · rw [State.loadImage_of_length_gt (by omega)] at h
    cases h

/-- Settles O55: the load port by its two cases, the image by `Memory.writeBytes`, and the two tied together by
induction on the image. -/
theorem loadPlacesTheImage : Obligations.LoadPlacesTheImage := by
  refine ⟨fun s a v hs => ⟨_, act_load_of_load hs a v, rfl, fun b => Memory.read_write ..⟩,
    fun s a v hs => act_load_of_not_load hs a v,
    fun s image hs hlen => ⟨_, State.loadImage_of_load hs hlen, rfl, Memory.read_writeBytes_zero _ hlen⟩,
    fun s image => State.loadImage_of_length_gt, fun s t image hs h => ?_, fun s t image => actAll_loadActions⟩
  by_cases hlen : image.length ≤ 256
  · rw [State.loadImage_of_not_load hs hlen] at h
    exact (Option.some.inj h).symm
  · rw [State.loadImage_of_length_gt (by omega)] at h
    cases h

end Sys2Proof.Machine
end

section
/-! PROOFS. The encoding: round trips, the length of an instruction, and the bytes no opcode map can use (30 R70 to R79,
R86). -/

namespace Sys2Proof

open Sys2Proof.Machine

theorem decode_eq_ok {bytes : List Byte} {i : Instr} {rest : List Byte} :
    decode bytes = .ok i rest ↔ bytes = encode i ++ rest :=
  decodeWith_eq_ok opcodeMap_valid

/-- Settles O2: it is one direction of `decodeWith_eq_ok`. -/
theorem decodeEncodeForEveryOpcodeMap : Obligations.DecodeEncodeForEveryOpcodeMap :=
  fun _ hm _ _ => (decodeWith_eq_ok hm).2 rfl

/-- Settles O3: it is the other direction, at the default opcode map. -/
theorem decodedBytesAreTheEncoding : Obligations.DecodedBytesAreTheEncoding :=
  fun _ _ _ => decode_eq_ok.1

/-- Settles O1: each word is the encoding of its instruction. -/
theorem specWordsDecode : Obligations.SpecWordsDecode := by
  refine ⟨?_, ?_, ?_, ?_, ?_, ?_, ?_, ?_, ?_, ?_, ?_, ?_, ?_⟩ <;> exact decode_eq_ok.2 rfl

theorem operandCount_eq_extractLsb' (op : Byte) : operandCount op = (op.extractLsb' 6 2).toNat := by
  have hop := op.isLt
  rw [operandCount_eq, BitVec.extractLsb'_toNat, Nat.shiftRight_eq_div_pow]
  omega

/-- An opcode byte is followed by as many operand bytes as its own operand count, under any valid map. -/
theorem length_of_decodeOpcodeWith {m : OpcodeMap} (hm : m.Valid) {op : Byte} {bytes rest : List Byte} {i : Instr}
    (hdec : decodeOpcodeWith m op bytes = .ok i rest) : bytes.length = operandCount op + rest.length := by
  obtain ⟨rfl, rfl⟩ := (decodeOpcodeWith_eq_ok hm).1 hdec
  rw [List.length_append, i.length_operandBytes, hm.2]

/-- Settles O4: the operand count is bits 7:6, and `length_of_decodeOpcodeWith` gives the length by it. -/
theorem topTwoBitsTellTheLength : Obligations.TopTwoBitsTellTheLength := by
  refine ⟨operandCount_eq_extractLsb', fun op _ _ _ hdec => ?_⟩
  rw [← operandCount_eq_extractLsb' op]
  exact length_of_decodeOpcodeWith opcodeMap_valid hdec

theorem operandCount_eq_three {op : Byte} (h : 0xC0 ≤ op.toNat) : operandCount op = 3 := by
  have hop := op.isLt
  rw [operandCount_eq]
  omega

theorem dispatchWith_of_operandCount_eq_three (m : OpcodeMap) {op : Byte} (h : operandCount op = 3) :
    dispatchWith m op = none := if_pos h

theorem decodeOpcodeWith_of_dispatchWith_eq_none {m : OpcodeMap} {op : Byte} (h : dispatchWith m op = none)
    (bytes : List Byte) : decodeOpcodeWith m op bytes = .refused (.noHandler op) := by
  rw [decodeOpcodeWith, h]

/-- Settles O5: bits 7:6 are both set from 0xC0 up, and the dispatch decoder answers no row there, whatever the map. -/
theorem countThreeHasNoHandler : Obligations.CountThreeHasNoHandler :=
  fun m _ bytes h =>
    decodeOpcodeWith_of_dispatchWith_eq_none (dispatchWith_of_operandCount_eq_three m (operandCount_eq_three h)) bytes

end Sys2Proof
end

section
/-! PROOFS. The step is total, and what it runs, where it stops at the top of memory and what it puts out (40 R101,
R103, R107, R112, R113, R120). -/

namespace Sys2Proof.Machine

/-- Settles O9: outside RUNNING the state itself, else what the fetch stops with or what `exec` answers. -/
theorem everyStepAnswersAState : Obligations.EveryStepAnswersAState := by
  intro s
  by_cases hs : s.status = .running
  · rw [step_running hs]
    cases s.fetch with
    | run i u =>
      obtain ⟨t, ht, -⟩ := exec_answer i u
      exact ⟨t, ht⟩
    | stop t => exact ⟨t, rfl⟩
  · exact ⟨s, step_notRunning hs⟩

/-- Settles O6: it is `stepWith_of_decodeWith` at the default opcode map, the latches written out. -/
theorem stepRunsDecodedInstruction : Obligations.StepRunsDecodedInstruction :=
  fun _ _ _ hs h => stepWith_of_decodeWith opcodeMap_valid hs h

theorem step_of_fetch_stop {s t : State} (hs : s.status = .running) (h : s.fetch = .stop t) : step s = .next t := by
  rw [step_running hs, h]

/-- Where the operand bytes of the opcode at the pc would lie past 255, the fetch faults at address 256. -/
theorem State.fetch_pastTheTop {s : State} {h : Mnemonic} (hop : Config.opcodeMap h = s.opcodeAt)
    (hpast : 255 < s.pc.toNat + h.format.operandCount) :
    ∃ bs, s.fetch = .stop ((s.latch bs).raise .addressOutOfRange (some 256)) := by
  have hpc := s.pc.isLt
  rcases s.fetch_cases with ⟨hnone, -⟩ | ⟨g, hg, hcase⟩
  · exact absurd hop (hnone h)
  · obtain rfl : h = g := opcodeMap_valid.1 h g (hop.trans hg.symm)
    rcases hcase with ⟨hn, -⟩ | ⟨-, hfirst, e⟩ | ⟨hn, hle, -⟩ | ⟨-, hle, hsecond, e⟩ | ⟨hn, hle, -⟩
    · omega
    · have haddr : s.pc.toNat + 1 = 256 := by omega
      rw [haddr] at e
      exact ⟨_, e⟩
    · omega
    · have haddr : s.pc.toNat + 2 = 256 := by omega
      rw [haddr] at e
      exact ⟨_, e⟩
    · omega

/-- Settles O11: the fetch stops the step with its fault, having changed the latches alone. -/
theorem operandFetchPastTheTopFaults : Obligations.OperandFetchPastTheTopFaults := by
  intro s h hs hop hpast
  obtain ⟨bs, hstop⟩ := State.fetch_pastTheTop hop hpast
  exact ⟨_, step_of_fetch_stop hs hstop, rfl, rfl, rfl, rfl, rfl, rfl⟩

/-! The output port (41 R142) -/

section
variable {s u : State}

theorem State.outPort_of_not_running (h : s.status ≠ .running) : s.outPort = none := if_neg h

theorem State.outPort_of_fetch_stop (h : s.fetch = .stop u) : s.outPort = none := by
  simp [State.outPort, h]

theorem State.outPort_of_fetch_prn {a : Byte} (hs : s.status = .running) (h : s.fetch = .run (.prn a) u) :
    s.outPort = (regOperand a).map u.reg := by
  simp [State.outPort, hs, h]

theorem State.outPort_of_fetch_not_prn {i : Instr} (h : s.fetch = .run i u) (hi : ∀ a, i ≠ .prn a) :
    s.outPort = none := by
  unfold State.outPort
  split
  · split
    next a t hf => exact absurd (Fetched.run.inj (h.symm.trans hf)).1 (hi a)
    next => rfl
  · rfl

end

/-- PRN appends the byte of the register it names, and nothing where its operand names none. -/
theorem exec_prn_out {a : Byte} {s t : State} (h : exec (.prn a) s = .next t) :
    t.out = s.out ++ ((regOperand a).map s.reg).toList := by
  cases h
  cases hr : regOperand a with
  | some r =>
    obtain rfl := regOperand_eq_some.1 hr
    rw [State.withReg_regByte, State.finish_advance, State.advance_out, State.emit_out]
    rfl
  | none =>
    rw [State.withReg_bad _ (regOperand_eq_none.1 hr), State.raise_out]
    exact (List.append_nil _).symm

/-- Settles O53: only PRN has a byte on the port, and by `latchAndOutputFrame` no other instruction appends one. -/
theorem outputPortIsAppended : Obligations.OutputPortIsAppended := by
  intro s t h
  rcases step_cases h with ⟨hs, rfl⟩ | ⟨hs, hstop | ⟨i, hf, hexec⟩⟩
  · rw [State.outPort_of_not_running hs]
    exact (List.append_nil _).symm
  · rw [State.outPort_of_fetch_stop hstop]
    obtain ⟨bs, k, d, rfl, -⟩ := State.fetch_eq_stop hstop
    exact (List.append_nil _).symm
  · by_cases hprn : ∃ a, i = .prn a
    · obtain ⟨a, rfl⟩ := hprn
      rw [State.outPort_of_fetch_prn hs hf]
      exact exec_prn_out (s := s.latch _) hexec
    · have hi : ∀ a, i ≠ .prn a := not_exists.1 hprn
      obtain ⟨-, -, -, -, hout, -⟩ := latchAndOutputFrame _ _ _ hexec
      rw [State.outPort_of_fetch_not_prn hf hi, hout hi]
      exact (List.append_nil _).symm

end Sys2Proof.Machine
end

section
/-! PROOFS. Sequences of the host's actions: each answers a state and keeps the invariant, and once the run is over only
`rst` changes anything (40 R101, R112, R120, R122, 60 R207). -/

namespace Sys2Proof.Machine

section
variable {s : State}

theorem State.statusAgrees_of_load (h : s.status = .load) : s.StatusAgrees := by
  simp [State.StatusAgrees, h]

theorem State.inv_loadByte (h : s.Inv) (a v : Byte) : (s.loadByte a v).Inv := by
  unfold State.loadByte
  split
  next hs =>
    obtain ⟨hmem, hfl, -⟩ := h
    exact ⟨Memory.wf_write v hmem a.isLt, hfl, State.statusAgrees_of_load hs⟩
  next => exact h

theorem State.inv_start (h : s.Inv) : s.start.Inv := by
  unfold State.start
  split
  · obtain ⟨hmem, hfl, -⟩ := h
    exact ⟨hmem, hfl, State.statusAgrees_of_running rfl⟩
  · exact h

/-- Every action of the host answers a state, and the invariant is kept. -/
theorem act_keeps_inv (a : HostAction) (s : State) : ∃ t, act a s = .next t ∧ (s.Inv → t.Inv) := by
  cases a with
  | rst => exact ⟨_, rfl, fun _ => invariantAtReset⟩
  | load b v => exact ⟨_, rfl, fun h => State.inv_loadByte h b v⟩
  | start => exact ⟨_, rfl, State.inv_start⟩
  | stepReq =>
    obtain ⟨t, ht⟩ := everyStepAnswersAState s
    exact ⟨t, ht, fun h => stepKeepsTheInvariant s t h ht⟩

/-- Settles O48: by induction on the actions, each of which answers a state and keeps the invariant. -/
theorem hostActionsKeepTheInvariant : Obligations.HostActionsKeepTheInvariant := by
  intro as
  induction as with
  | nil => exact fun s => ⟨s, rfl, id⟩
  | cons a as ih =>
    intro s
    obtain ⟨u, hact, hu⟩ := act_keeps_inv a s
    obtain ⟨t, hall, ht⟩ := ih u
    exact ⟨t, actAll_cons.2 ⟨u, hact, hall⟩, ht ∘ hu⟩

/-! Once the run is over -/

theorem State.Over.not_running (h : s.Over) : s.status ≠ .running := by
  rcases h with h | ⟨r, h⟩ <;> simp [h]

theorem State.Over.not_load (h : s.Over) : s.status ≠ .load := by
  rcases h with h | ⟨r, h⟩ <;> simp [h]

theorem State.start_of_not_load (h : s.status ≠ .load) : s.start = s := if_neg h

theorem act_of_over {a : HostAction} (h : s.Over) (ha : a ≠ .rst) : act a s = .next s := by
  cases a with
  | rst => exact absurd rfl ha
  | load b v => exact act_load_of_not_load h.not_load b v
  | start => exact congrArg Host.Outcome.next (State.start_of_not_load h.not_load)
  | stepReq => exact step_notRunning h.not_running

theorem actAll_of_over {as : List HostAction} (h : s.Over) (hrst : HostAction.rst ∉ as) : actAll as s = .next s := by
  induction as with
  | nil => rfl
  | cons a as ih =>
    obtain ⟨ha, has⟩ := List.ne_and_not_mem_of_not_mem_cons hrst
    exact actAll_cons.2 ⟨s, act_of_over h ha.symm, ih has⟩

end

theorem run_succ_of_step {M : Host.Core} {s t : M.State} (h : M.step s = .next t) (k : Nat) :
    M.run (k + 1) s = M.run k t := by
  rw [Host.Core.run, h]

/-- Steps that answer the same state do so however many there are. -/
theorem run_of_step_self {M : Host.Core} {s : M.State} (h : M.step s = .next s) (k : Nat) : M.run k s = .next s := by
  induction k with
  | zero => rfl
  | succ k ih => exact (run_succ_of_step h k).trans ih

/-- Settles O49: in an over state neither a step nor an action but `rst` does anything, however often. -/
theorem overIsFinal : Obligations.OverIsFinal :=
  fun _ h => ⟨run_of_step_self (M := core) (step_notRunning h.not_running), fun _ hrst => actAll_of_over h hrst⟩

end Sys2Proof.Machine
end

section
/-! PROOFS. The advance past 255 keeps the instruction's effects (40 R111, 92 D10): what a continuing instruction does
before its advance does not depend on the pc. -/

namespace Sys2Proof.Machine

/-- The state with another pc. -/
def State.withPc (s : State) (c : Byte) : State := { s with pc := c }

/-- `f c`, where an instruction of `n` operand bytes ends that begins in `s` at address `c`, is the same fault for every
`c`, or the advance from the same effects for every `c`. -/
def FaultsOrAdvances (s : State) (n : Nat) (f : Byte → State) : Prop :=
  (∃ k d, ∀ c, f c = (s.withPc c).raise k d) ∨ ∃ v : State, v.ir = s.ir ∧ ∀ c, f c = (v.withPc c).advance n

section
variable {s : State} {n : Nat} {f : Byte → State}

theorem FaultsOrAdvances.raise (k : FaultKind) (d : Option Detail) (h : ∀ c, f c = (s.withPc c).raise k d) :
    FaultsOrAdvances s n f :=
  .inl ⟨k, d, h⟩

theorem FaultsOrAdvances.advance (v : State) (hir : v.ir = s.ir) (h : ∀ c, f c = (v.withPc c).advance n) :
    FaultsOrAdvances s n f :=
  .inr ⟨v, hir, h⟩

/-- The operand check is the same at every address. -/
theorem FaultsOrAdvances.withReg {a : Byte} {g : Byte → RegIndex → State}
    (h : ∀ r, FaultsOrAdvances s n fun c => g c r) :
    FaultsOrAdvances s n fun c => (s.withPc c).withReg a (g c) := by
  cases hr : regOperand a with
  | some r =>
    obtain rfl := regOperand_eq_some.1 hr
    simpa only [State.withReg_regByte] using h r
  | none => exact .raise _ _ fun c => State.withReg_bad _ (regOperand_eq_none.1 hr) _

theorem faultsOrAdvances_handlePush (r : RegIndex) :
    FaultsOrAdvances s 1 fun c => (s.withPc c).finish 1 (handlePush r (s.withPc c)) := by
  by_cases hsp : s.x[7] = 0
  · exact .raise _ _ fun c => by rw [handlePush_overflow (s := s.withPc c) r hsp, State.finish_raises]
  · refine .advance { s with
      x := s.x.set 7 (s.x[7] - 1)
      mem := Memory.write s.mem (s.x[7].toNat - 1) (if r = 7 then s.x[7] - 1 else s.x[r]) } rfl fun c => ?_
    rw [handlePush_done (s := s.withPc c) r hsp]
    rfl

theorem faultsOrAdvances_handlePop (empty : Byte) (r : RegIndex) :
    FaultsOrAdvances s 1 fun c => (s.withPc c).finish 1 (handlePop empty r (s.withPc c)) := by
  by_cases hsp : s.x[7].toNat < empty.toNat
  · refine .advance { s with
      x := if r = 7 then s.x.set 7 (Memory.read s.mem s.x[7].toNat + 1)
        else (s.x.set r (Memory.read s.mem s.x[7].toNat)).set 7 (s.x[7] + 1) } rfl fun c => ?_
    rw [handlePop_done (s := s.withPc c) r hsp]
    rfl
  · exact .raise .stackUnderflow (some (byteDetail s.x[7])) fun c => by
      rw [handlePop_underflow (s := s.withPc c) r (Nat.le_of_not_lt hsp)]
      rfl

/-- A branch that is not taken only advances. -/
theorem faultsOrAdvances_handleBranch {taken : Bool} (h : taken = false) (r : RegIndex) :
    FaultsOrAdvances s 1 fun c => (s.withPc c).finish 1 (handleBranch taken r (s.withPc c)) :=
  .advance s rfl fun c => by rw [h]; rfl

/-- Wherever a continuing instruction stands, it raises the same fault or advances from the same effects. -/
theorem exec_faultsOrAdvances {i : Instr} (h : continuesAfter i s.fl = true) :
    ∃ f, (∀ c, exec i (s.withPc c) = .next (f c)) ∧ FaultsOrAdvances s i.mnemonic.format.operandCount f := by
  cases i with
  | hlt | call _ | ret | jmp _ => cases h
  | ldi a imm => exact ⟨_, fun _ => rfl, .withReg fun r => .advance (s.setReg r imm) rfl fun _ => rfl⟩
  | prn a => exact ⟨_, fun _ => rfl, .withReg fun r => .advance (s.emit (s.reg r)) rfl fun _ => rfl⟩
  | mul a b =>
    exact ⟨_, fun _ => rfl, .withReg fun r => .withReg fun q =>
      .advance (s.setReg r (aluMul (s.reg r) (s.reg q))) rfl fun _ => rfl⟩
  | add a b =>
    exact ⟨_, fun _ => rfl, .withReg fun r => .withReg fun q =>
      .advance (s.setReg r (aluAdd (s.reg r) (s.reg q))) rfl fun _ => rfl⟩
  | cmp a b =>
    exact ⟨_, fun _ => rfl, .withReg fun r => .withReg fun q =>
      .advance (s.setFlags (aluCompare (s.reg r) (s.reg q))) rfl fun _ => rfl⟩
  | push a => exact ⟨_, fun _ => rfl, .withReg faultsOrAdvances_handlePush⟩
  | pop a => exact ⟨_, fun _ => rfl, .withReg (faultsOrAdvances_handlePop _)⟩
  | jeq a =>
    have htaken : s.fl.e = false := by simpa [continuesAfter] using h
    exact ⟨_, fun _ => rfl, .withReg (faultsOrAdvances_handleBranch htaken)⟩
  | jne a =>
    have htaken : (!s.fl.e) = false := by simpa [continuesAfter] using h
    exact ⟨_, fun _ => rfl, .withReg (faultsOrAdvances_handleBranch htaken)⟩

end

theorem operandCount_le_two (f : Format) : f.operandCount ≤ 2 := by cases f <;> decide

theorem length_encode (i : Instr) : (encode i).length = 1 + i.mnemonic.format.operandCount := by
  rw [encode, encodeWith, List.length_cons, i.length_operandBytes, Nat.add_comm]

/-- Settles O32: at address 0 the instruction that completes has advanced, so at the top it advances from the same
effects, and faults. -/
theorem advanceFaultKeepsTheEffects : Obligations.AdvanceFaultKeepsTheEffects := by
  intro i s t u hcont hpast ht hu hcompletes
  obtain ⟨f, hf, hcase⟩ := exec_faultsOrAdvances hcont
  cases ht.symm.trans (hf s.pc)
  cases hu.symm.trans (hf 0)
  rw [length_encode, ← Nat.add_assoc] at hpast ⊢
  rcases hcase with ⟨k, d, hraise⟩ | ⟨v, hir, hadv⟩
  · rw [hraise 0] at hcompletes
    exact absurd rfl hcompletes
  · have hcount := operandCount_le_two i.mnemonic.format
    have hzero : 0 + 1 + i.mnemonic.format.operandCount ≤ 255 := by omega
    rw [hadv s.pc, hadv 0, State.advance_past (v.withPc s.pc) hpast, State.advance_inRange (v.withPc 0) hzero, ← hir]
    rfl

end Sys2Proof.Machine
end

section
/-! PROOFS. HLT, LDI and PRN (41 R140 to R142), and where the advance goes (40 R110, R111, 92 D10). -/

namespace Sys2Proof.Machine

/-! The advance as an addition to the pc, and past the top as a fault of the effects so far -/

section
variable (s : State) {n : Nat}

theorem State.advance_eq_add (h : s.pc.toNat + (n + 1) ≤ 255) :
    s.advance n = { s with pc := s.pc + BitVec.ofNat 8 (n + 1) } := by
  have hpc : BitVec.ofNat 8 (s.pc.toNat + 1 + n) = s.pc + BitVec.ofNat 8 (n + 1) :=
    BitVec.eq_of_toNat_eq (by simp [Nat.add_assoc, Nat.add_comm n])
  rw [s.advance_inRange (by omega), hpc]

theorem State.advance_eq_faulted (h : 255 < s.pc.toNat + (n + 1)) :
    s.advance n = s.faulted .addressOutOfRange (some (BitVec.ofNat 9 (s.pc.toNat + (n + 1)))) := by
  have hsum : s.pc.toNat + 1 + n = s.pc.toNat + (n + 1) := by omega
  rw [s.advance_past (hsum ▸ h), hsum]
  rfl

end

/-! What the three instructions do -/

theorem exec_hlt (s : State) : exec .hlt s = .next { s with status := .halted } := rfl

theorem exec_ldi_regByte (r : RegIndex) (v : Byte) (s : State) :
    exec (.ldi (regByte r) v) s = .next ((s.setReg r v).advance 2) := by
  rw [exec, execLdi, State.withReg_regByte, State.finish_advance, immOperand]

theorem exec_prn_regByte (r : RegIndex) (s : State) :
    exec (.prn (regByte r)) s = .next ((s.emit (s.reg r)).advance 1) := by
  rw [exec, execPrn, State.withReg_regByte, State.finish_advance]

/-- HLT has no operand bytes, so its opcode byte alone is decoded, wherever it stands (40 R107). -/
theorem State.fetch_hlt {s : State} (h : s.opcodeAt = Config.opcodeMap .hlt) :
    s.fetch = .run .hlt (s.latch s.operandsAt) := by
  have hdec : decodeWith Config.opcodeMap (s.opcodeAt :: s.operandsAt) = .ok .hlt s.operandsAt :=
    (decodeOpcodeWith_eq_ok opcodeMap_valid).2 ⟨h.symm, rfl⟩
  rw [State.fetch, State.fetchWith, hdec]

/-- Settles O15: the fetch of HLT changes the latches alone, and HLT the status alone. -/
theorem hltHalts : Obligations.HltHalts := by
  refine ⟨exec_hlt, fun s hs hop => ?_⟩
  have hstep : step s = .next { s.latch s.operandsAt with status := .halted } := by
    rw [step_running hs, State.fetch_hlt hop]
    exact exec_hlt (s.latch s.operandsAt)
  exact ⟨_, hstep, rfl, rfl, rfl, rfl, rfl, rfl⟩

/-- Settles O16: LDI writes its register and advances by 3, from 253 up past the top. -/
theorem ldiLoadsImmediate : Obligations.LdiLoadsImmediate := by
  refine ⟨fun r v s hpc => ?_, fun r v s hpc => ?_⟩ <;> rw [exec_ldi_regByte]
  · exact congrArg _ ((s.setReg r v).advance_eq_add (Nat.add_le_add_right hpc 3))
  · exact congrArg _ ((s.setReg r v).advance_eq_faulted (Nat.add_le_add_right hpc 3))

/-- Settles O17: PRN emits its register and advances by 2, from 254 up past the top. -/
theorem prnEmitsRegister : Obligations.PrnEmitsRegister := by
  refine ⟨fun r s hpc => ?_, fun r s hpc => ?_⟩ <;> rw [exec_prn_regByte]
  · exact congrArg _ ((s.emit (s.reg r)).advance_eq_add (Nat.add_le_add_right hpc 2))
  · exact congrArg _ ((s.emit (s.reg r)).advance_eq_faulted (Nat.add_le_add_right hpc 2))

end Sys2Proof.Machine
end

section
/-! PROOFS. MUL, ADD and CMP (42 R150 to R155): what each writes, who reads and writes the flags, and when a product
is 0 modulo 256. -/

namespace Sys2Proof.Machine

/-! The results, and the three instructions up to their advance -/

theorem byte_ofNat_mod (n : Nat) : BitVec.ofNat 8 (n % 256) = BitVec.ofNat 8 n :=
  BitVec.eq_of_toNat_eq (by simp)

theorem aluMul_eq_mod (a b : Byte) : aluMul a b = BitVec.ofNat 8 (a.toNat * b.toNat % 256) :=
  (byte_ofNat_mod _).symm

theorem aluAdd_eq_mod (a b : Byte) : aluAdd a b = BitVec.ofNat 8 ((a.toNat + b.toNat) % 256) :=
  (byte_ofNat_mod _).symm

section
variable (a b : RegIndex) (s : State)

theorem exec_mul_regByte :
    exec (.mul (regByte a) (regByte b)) s = .next ((s.setReg a (aluMul (s.reg a) (s.reg b))).advance 2) := by
  rw [exec, execMul, State.withReg_regByte, State.withReg_regByte, State.finish_advance]

theorem exec_add_regByte :
    exec (.add (regByte a) (regByte b)) s = .next ((s.setReg a (aluAdd (s.reg a) (s.reg b))).advance 2) := by
  rw [exec, execAdd, State.withReg_regByte, State.withReg_regByte, State.finish_advance]

theorem exec_cmp_regByte :
    exec (.cmp (regByte a) (regByte b)) s = .next ((s.setFlags (aluCompare (s.reg a) (s.reg b))).advance 2) := by
  rw [exec, execCmp, State.withReg_regByte, State.withReg_regByte, State.finish_advance]

end

/-- Settles O18: MUL writes the product and advances by 3, from 253 up past the top. -/
theorem mulMultipliesModulo256 : Obligations.MulMultipliesModulo256 := by
  refine ⟨fun a b s hpc => ?_, fun a b s hpc => ?_⟩ <;> rw [exec_mul_regByte, aluMul_eq_mod]
  · exact congrArg _ ((s.setReg a _).advance_eq_add (Nat.add_le_add_right hpc 3))
  · exact congrArg _ ((s.setReg a _).advance_eq_faulted (Nat.add_le_add_right hpc 3))

/-- Settles O19: ADD writes the sum and advances by 3, from 253 up past the top. -/
theorem addAddsModulo256 : Obligations.AddAddsModulo256 := by
  refine ⟨fun a b s hpc => ?_, fun a b s hpc => ?_⟩ <;> rw [exec_add_regByte, aluAdd_eq_mod]
  · exact congrArg _ ((s.setReg a _).advance_eq_add (Nat.add_le_add_right hpc 3))
  · exact congrArg _ ((s.setReg a _).advance_eq_faulted (Nat.add_le_add_right hpc 3))

/-- Settles O20: CMP writes the flags of R153 and advances by 3, from 253 up past the top. -/
theorem cmpSetsExactlyOneFlag : Obligations.CmpSetsExactlyOneFlag := by
  refine ⟨fun a b s hpc => ?_, fun a b s hpc => ?_⟩ <;> rw [exec_cmp_regByte, aluCompare_eq]
  · exact congrArg _ ((s.setFlags _).advance_eq_add (Nat.add_le_add_right hpc 3))
  · exact congrArg _ ((s.setFlags _).advance_eq_faulted (Nat.add_le_add_right hpc 3))

/-! When a product is 0 (42 R155) -/

/-- A product narrowed to a byte is 0 exactly when 2 ^ 8 divides it. -/
theorem aluMul_eq_zero_iff_dvd {a b : Byte} : aluMul a b = 0 ↔ 2 ^ 8 ∣ a.toNat * b.toNat := by
  rw [aluMul, BitVec.toNat_eq, BitVec.toNat_ofNat, Nat.dvd_iff_mod_eq_zero]
  rfl

/-- The exponent of 2 in a product is the sum of those in its factors, where neither is 0. -/
theorem aluMul_eq_zero_iff {a b : Byte} :
    aluMul a b = 0 ↔ a = 0 ∨ b = 0 ∨ 8 ≤ padicValNat 2 a.toNat + padicValNat 2 b.toNat := by
  rw [aluMul_eq_zero_iff_dvd]
  by_cases ha : a = 0
  · simp [ha]
  by_cases hb : b = 0
  · simp [hb]
  have ha' : a.toNat ≠ 0 := fun h => ha (BitVec.eq_of_toNat_eq h)
  have hb' : b.toNat ≠ 0 := fun h => hb (BitVec.eq_of_toNat_eq h)
  rw [padicValNat_dvd_iff_le (Nat.mul_ne_zero ha' hb'), padicValNat.mul ha' hb', or_iff_right ha, or_iff_right hb]

/-- Settles O45: the advance keeps the product in x[A], whether it faults or not. -/
theorem mulIsZeroExactlyOnMultiplesOf256 : Obligations.MulIsZeroExactlyOnMultiplesOf256 := by
  intro a b s t h
  rw [exec_mul_regByte] at h
  cases h
  have hresult : ((s.setReg a (aluMul (s.reg a) (s.reg b))).advance 2).x[a] = aluMul s.x[a] s.x[b] := by
    rw [State.advance_x]
    exact State.reg_setReg_self s a _
  rw [hresult, aluMul_eq_zero_iff]

/-! Who writes the flags (10 R30, 42 R154) -/

theorem aluCompare_oneHot (a b : Byte) :
    aluCompare a b = ⟨true, false, false⟩ ∨ aluCompare a b = ⟨false, true, false⟩ ∨
      aluCompare a b = ⟨false, false, true⟩ := by
  rw [aluCompare_eq]
  split
  · exact .inl rfl
  · split
    · exact .inr (.inr rfl)
    · exact .inr (.inl rfl)

/-- A well-formed instruction has no register operand above 7 (30 R79). -/
theorem find?_bad_of_wf {i : Instr} (h : i.wf = true) :
    i.regOperands.find? (fun r => decide (7 < r.toNat)) = none := by
  rw [List.find?_eq_none]
  intro r hr
  have hlt : r.toNat < 8 := of_decide_eq_true (List.all_eq_true.1 h r hr)
  rw [decide_eq_true_iff]
  omega

section
variable {s t u : State} {f : Flags}

theorem exec_fl_of_not_cmp {i : Instr} (h : exec i s = .next t) (hi : ∀ a b, i ≠ .cmp a b) : t.fl = s.fl := by
  cases exec_cases h
  case cmp r q => exact absurd rfl (hi _ _)
  case ldi | prn | mul | add | push | pop | jeqNotTaken | jneNotTaken => exact State.advance_fl _ _
  all_goals rfl

theorem exec_cmp_x {a b : Byte} (h : exec (.cmp a b) s = .next t) : t.x = s.x := by
  cases exec_cases h
  case badRegister => rfl
  case cmp => rw [State.advance_x, State.setFlags_x]

theorem exec_cmp_oneHot {a b : Byte} (h : exec (.cmp a b) s = .next t) (hwf : Instr.wf (.cmp a b) = true) :
    t.fl = ⟨true, false, false⟩ ∨ t.fl = ⟨false, true, false⟩ ∨ t.fl = ⟨false, false, true⟩ := by
  cases exec_cases h
  case badRegister c hbad => cases (find?_bad_of_wf hwf).symm.trans hbad
  case cmp r q =>
    rw [State.advance_fl]
    exact aluCompare_oneHot _ _

/-! Who reads the flags: the end of a step, the operand check and the handlers commute with writing them -/

/-- `u` is `t` but for the flags. -/
def SameButFlags (t u : State) : Prop := u.setFlags t.fl = t

theorem State.advance_setFlags (s : State) (f : Flags) (n : Nat) :
    (s.setFlags f).advance n = (s.advance n).setFlags f := by
  rcases s.advance_cases n with ⟨hle, e⟩ | ⟨hpast, e⟩ <;> rw [e]
  · exact (s.setFlags f).advance_inRange hle
  · exact (s.setFlags f).advance_past hpast

/-- A register operand adds nothing that depends on the flags. -/
theorem SameButFlags.withReg {a : Byte} {g g' : RegIndex → State} (h : ∀ r, SameButFlags (g r) (g' r)) :
    SameButFlags (s.withReg a g) ((s.setFlags f).withReg a g') :=
  State.withReg_rel SameButFlags (fun _ _ => rfl) fun r _ => h r

/-- A handler whose answer does not depend on the flags has the same effect whatever they are. -/
theorem SameButFlags.finish {e e' : Effect} (n : Nat) (he : e' = e.mapState (·.setFlags f)) :
    SameButFlags (s.finish n e) ((s.setFlags f).finish n e') := by
  subst he
  rcases e with ⟨k, d⟩ | ⟨t, _ | a | _⟩
  case done.implicitAdvance =>
    rw [Effect.mapState_done, State.finish_advance, State.finish_advance, State.advance_setFlags]
    rfl
  all_goals rfl

theorem handlePush_setFlags (r : RegIndex) :
    handlePush r (s.setFlags f) = (handlePush r s).mapState (·.setFlags f) := by
  rw [handlePush, handlePush, Effect.mapState_ite]
  rfl

theorem handlePop_setFlags (empty : Byte) (r : RegIndex) :
    handlePop empty r (s.setFlags f) = (handlePop empty r s).mapState (·.setFlags f) := by
  rw [handlePop, handlePop, Effect.mapState_ite]
  rfl

theorem handleCall_setFlags (r : RegIndex) :
    handleCall r (s.setFlags f) = (handleCall r s).mapState (·.setFlags f) := by
  rw [handleCall, handleCall, Effect.mapState_ite, Effect.mapState_ite]
  rfl

theorem handleRet_setFlags (empty : Byte) :
    handleRet empty (s.setFlags f) = (handleRet empty s).mapState (·.setFlags f) := by
  rw [handleRet, handleRet, Effect.mapState_ite]
  rfl

/-- Whatever the flags are, an instruction does the same, and JEQ and JNE if E is the same. -/
theorem exec_sameButFlags {i : Instr} (ht : exec i s = .next t) (hu : exec i (s.setFlags f) = .next u)
    (he : i.mnemonic = .jeq ∨ i.mnemonic = .jne → f.e = s.fl.e) : SameButFlags t u := by
  cases i <;> cases ht <;> cases hu
  case hlt => rfl
  case ldi | prn | jmp => exact .withReg fun r => .finish _ rfl
  case mul | add => exact .withReg fun r => .withReg fun q => .finish _ rfl
  case cmp => exact .withReg fun r => .withReg fun q => rfl
  case push => exact .withReg fun r => .finish _ (handlePush_setFlags r)
  case pop => exact .withReg fun r => .finish _ (handlePop_setFlags _ r)
  case call => exact .withReg fun r => .finish _ (handleCall_setFlags r)
  case ret => exact .finish _ (handleRet_setFlags _)
  case jeq =>
    rw [State.setFlags_fl, he (.inl rfl)]
    exact .withReg fun r => .finish _ rfl
  case jne =>
    rw [State.setFlags_fl, he (.inr rfl)]
    exact .withReg fun r => .finish _ rfl

end

theorem mnemonic_ne_branch {i : Instr} (hi : ∀ a, i ≠ .jeq a ∧ i ≠ .jne a) :
    ¬ (i.mnemonic = .jeq ∨ i.mnemonic = .jne) := by
  rintro (h | h) <;> cases i <;> cases h
  · exact (hi _).1 rfl
  · exact (hi _).2 rfl

/-- Settles O38: CMP's answer is a comparison; every other instruction leaves the flags, and its answer commutes with
writing them, for JEQ and JNE where E stays. -/
theorem flagsWrittenByCmpReadByBranches : Obligations.FlagsWrittenByCmpReadByBranches :=
  ⟨fun _ _ _ h hi => exec_fl_of_not_cmp h hi,
    fun _ _ _ _ h => ⟨exec_cmp_x h, exec_cmp_oneHot h⟩,
    fun _ _ _ h hs => exec_keeps_exclusive h hs,
    fun _ _ _ _ _ hi ht hu => exec_sameButFlags ht hu fun hbranch => absurd hbranch (mnemonic_ne_branch hi),
    fun _ _ _ _ _ _ ht hu => exec_sameButFlags ht hu fun _ => rfl⟩

end Sys2Proof.Machine
end

section
/-! PROOFS. PUSH and POP (43 R171 to R174, 92 D6, D7, D10), POP and RET for every STACK_EMPTY (93 U16), and the round
trip of a register over the stack. -/

namespace Sys2Proof.Machine

/-! What a completed push and a completed pop leave, but for the pc and the status -/

section
variable (s : State) (r : RegIndex)

/-- The push of a register: the lowered SP, and at it the register, R7 read after the decrement (43 R171, 92 D7). -/
def State.pushed : State :=
  { s with
    x := s.x.set 7 (s.x[7] - 1)
    mem := Memory.write s.mem (s.x[7].toNat - 1) (if r = 7 then s.x[7] - 1 else s.x[r]) }

/-- The pop to a register: the top in the register, then the raised SP, R7 read after the load (43 R172, 92 D7). -/
def State.popped : State :=
  { s with
    x := if r = 7 then s.x.set 7 (Memory.read s.mem s.x[7].toNat + 1)
      else (s.x.set r (Memory.read s.mem s.x[7].toNat)).set 7 (s.x[7] + 1) }

theorem State.pushed_x : (s.pushed r).x = s.x.set 7 (s.x[7] - 1) := rfl

theorem State.popped_x :
    (s.popped r).x = if r = 7 then s.x.set 7 (Memory.read s.mem s.x[7].toNat + 1)
      else (s.x.set r (Memory.read s.mem s.x[7].toNat)).set 7 (s.x[7] + 1) := rfl

theorem State.pushed_sp : (s.pushed r).x[7] = s.x[7] - 1 := Vector.getElem_set_self ..

end

section
variable {s : State} (r : RegIndex)

theorem exec_push_eq_pushed (h : s.x[7] ≠ 0) : exec (.push (regByte r)) s = .next ((s.pushed r).advance 1) :=
  exec_push_regByte r h

theorem execFor_pop_of_lt {p : Params} (h : s.x[7].toNat < p.stackEmpty.toNat) :
    execFor p (.pop (regByte r)) s = .next ((s.popped r).advance 1) := by
  rw [execFor, execPopWith, State.withReg_regByte, handlePop_done r h, State.finish_advance, State.popped]

theorem execFor_pop_of_ge {p : Params} (h : p.stackEmpty.toNat ≤ s.x[7].toNat) :
    execFor p (.pop (regByte r)) s = .next (s.faulted .stackUnderflow (some (s.x[7].setWidth 9))) := by
  rw [execFor, execPopWith, State.withReg_regByte, handlePop_underflow r h]
  rfl

theorem execFor_ret_of_lt {p : Params} (h : s.x[7].toNat < p.stackEmpty.toNat) :
    execFor p .ret s = .next { s with x := s.x.set 7 (s.x[7] + 1), pc := Memory.read s.mem s.x[7].toNat } := by
  rw [execFor, execRetWith, handleRet_done h, State.finish_jump]

theorem execFor_ret_of_ge {p : Params} (h : p.stackEmpty.toNat ≤ s.x[7].toNat) :
    execFor p .ret s = .next (s.faulted .stackUnderflow (some (s.x[7].setWidth 9))) := by
  rw [execFor, execRetWith, handleRet_underflow h]
  rfl

end

/-- STACK_EMPTY reaches POP and RET alone (93 U16). -/
theorem execFor_eq_exec (p : Params) {i : Instr} (s : State) (hpop : ∀ a, i ≠ .pop a) (hret : i ≠ .ret) :
    execFor p i s = exec i s := by
  cases i
  case pop a => exact absurd rfl (hpop a)
  case ret => exact absurd rfl hret
  all_goals rfl

/-- Settles O21: PUSH leaves the pushed state and advances by 2, from 254 up past the top. -/
theorem pushStoresBelowTheStackPointer : Obligations.PushStoresBelowTheStackPointer := by
  refine ⟨fun r s hsp hpc => ?_, fun r s hsp hpc => ?_⟩ <;> rw [exec_push_eq_pushed r hsp]
  · exact congrArg _ ((s.pushed r).advance_eq_add (Nat.add_le_add_right hpc 2))
  · exact congrArg _ ((s.pushed r).advance_eq_faulted (Nat.add_le_add_right hpc 2))

/-- Settles O31: below the sentinel POP leaves the popped state and advances by 2, from 254 up past the top, and RET
jumps to the top; from it up both raise; no other instruction's meaning has the sentinel in it. -/
theorem popAndRetForEverySentinel : Obligations.PopAndRetForEverySentinel := by
  refine ⟨fun p r s hsp hpc => ?_, fun p r s hsp hpc => ?_, fun p s hsp => execFor_ret_of_lt hsp,
    fun p r s hsp => ⟨execFor_pop_of_ge r hsp, execFor_ret_of_ge hsp⟩,
    fun p i s hpop hret => execFor_eq_exec p s hpop hret⟩ <;> rw [execFor_pop_of_lt r hsp]
  · exact congrArg _ ((s.popped r).advance_eq_add (Nat.add_le_add_right hpc 2))
  · exact congrArg _ ((s.popped r).advance_eq_faulted (Nat.add_le_add_right hpc 2))

/-- Settles O22: it is POP of `popAndRetForEverySentinel` at the default sentinel 0xF4. -/
theorem popLoadsTheTop : Obligations.PopLoadsTheTop := by
  obtain ⟨hinRange, hpast, -⟩ := popAndRetForEverySentinel
  exact ⟨fun r s hsp hpc => (exec_eq_execFor _ s).trans (hinRange Config.params r s hsp hpc),
    fun r s hsp hpc => (exec_eq_execFor _ s).trans (hpast Config.params r s hsp hpc)⟩

/-! The round trip (43 R174) -/

section
variable {s : State} (r : RegIndex)

/-- The byte at the lowered SP is the one pushed. -/
theorem State.read_pushed_top (h : s.x[7] ≠ 0) :
    Memory.read (s.pushed r).mem (s.pushed r).x[7].toNat = if r = 7 then s.x[7] - 1 else s.x[r] := by
  have haddr : (s.x[7] - 1 : Byte).toNat = s.x[7].toNat - 1 := State.spDec_toNat h
  rw [State.pushed_sp, haddr]
  exact Memory.read_write_same ..

/-- What the push took from SP the pop gives back, for R7 to the lowered SP it loads. -/
theorem State.popped_pushed_x (h : s.x[7] ≠ 0) : ((s.pushed r).popped r).x = s.x := by
  rw [State.popped_x, State.read_pushed_top r h, State.pushed_sp, State.pushed_x]
  split
  next => rw [BitVec.sub_add_cancel, Vector.set_set, Vector.set_getElem_self]
  next h7 =>
    have hne : (7 : Nat) ≠ r := fun h => h7 (Fin.ext h.symm)
    rw [BitVec.sub_add_cancel, Vector.set_comm _ _ hne, Vector.set_set, Fin.getElem_fin, Vector.set_getElem_self,
      Vector.set_getElem_self]

end

/-- Settles O41: PUSH leaves SP below 0xF4, so POP completes, and pops what PUSH pushed. -/
theorem pushPopRoundTrip : Obligations.PushPopRoundTrip := by
  intro r s hbottom hempty hpc
  have hsp : s.x[7] ≠ 0 := fun h => by simp [h] at hbottom
  have hlow : (s.x[7] - 1 : Byte).toNat = s.x[7].toNat - 1 := State.spDec_toNat hsp
  have hpop : (s.pushed r).x[7].toNat < 0xF4 := by
    rw [State.pushed_sp]
    omega
  have hpc' : (s.pc + 2).toNat ≤ 253 := by bv_omega
  exact ⟨_, _, pushStoresBelowTheStackPointer.1 r s hsp (by omega),
    popLoadsTheTop.1 r { s.pushed r with pc := s.pc + 2 } hpop hpc', State.popped_pushed_x r hsp,
    BitVec.add_assoc s.pc 2 2, rfl, rfl, rfl, Memory.read_write_same ..⟩

end Sys2Proof.Machine
end

section
/-! PROOFS. CALL, RET, JMP, JEQ and JNE (44 R180 to R187, 92 D6, D7, D10, D11, D21): what each does, the return from a
call, and the jump that never ends. -/

namespace Sys2Proof.Machine

/-! JMP, and the two branches by their condition -/

section
variable (r : RegIndex) (s : State)

theorem exec_jmp_regByte : exec (.jmp (regByte r)) s = .next { s with pc := s.x[r] } := by
  rw [exec, execJmp, State.withReg_regByte, State.finish_jump, State.reg]

theorem exec_jeq_regByte : exec (.jeq (regByte r)) s = .next (s.finish 1 (handleBranch s.fl.e r s)) := by
  rw [exec, execJeq, State.withReg_regByte]

theorem exec_jne_regByte : exec (.jne (regByte r)) s = .next (s.finish 1 (handleBranch (!s.fl.e) r s)) := by
  rw [exec, execJne, State.withReg_regByte]

theorem State.finish_branch_taken : s.finish 1 (handleBranch true r s) = { s with pc := s.x[r] } := rfl

theorem State.finish_branch_notTaken : s.finish 1 (handleBranch false r s) = s.advance 1 := rfl

theorem State.finish_branch_inRange (h : s.pc.toNat ≤ 253) :
    s.finish 1 (handleBranch false r s) = { s with pc := s.pc + 2 } :=
  (s.finish_branch_notTaken r).trans (s.advance_eq_add (Nat.add_le_add_right h 2))

theorem State.finish_branch_pastTheTop (h : 254 ≤ s.pc.toNat) :
    s.finish 1 (handleBranch false r s) = s.faulted .addressOutOfRange (some (BitVec.ofNat 9 (s.pc.toNat + 2))) :=
  (s.finish_branch_notTaken r).trans (s.advance_eq_faulted (Nat.add_le_add_right h 2))

/-- CALL where the return address does not fit a byte, whatever SP is (92 D11, D21). -/
theorem exec_call_regByte_outOfRange (h : 254 ≤ s.pc.toNat) :
    exec (.call (regByte r)) s =
      .next (s.faulted .addressOutOfRange (some (BitVec.ofNat 9 (s.pc.toNat + 2)))) := by
  rw [exec, execCall, State.withReg_regByte, handleCall_outOfRange r h]
  rfl

end

/-- Settles O25: it is `exec_jmp_regByte`. -/
theorem jmpJumpsToRegister : Obligations.JmpJumpsToRegister := exec_jmp_regByte

/-- Settles O26: JEQ is the branch taken where E is 1. -/
theorem jeqJumpsIfEqual : Obligations.JeqJumpsIfEqual := by
  refine ⟨fun r s he => ?_, fun r s he hpc => ?_, fun r s he hpc => ?_⟩ <;> rw [exec_jeq_regByte, he]
  · rw [State.finish_branch_taken]
  · rw [s.finish_branch_inRange r hpc]
  · rw [s.finish_branch_pastTheTop r hpc]

/-- Settles O27: JNE is the branch taken where E is 0. -/
theorem jneJumpsIfNotEqual : Obligations.JneJumpsIfNotEqual := by
  refine ⟨fun r s he => ?_, fun r s he hpc => ?_, fun r s he hpc => ?_⟩ <;> rw [exec_jne_regByte, he]
  · rw [Bool.not_false, State.finish_branch_taken]
  · rw [Bool.not_true, s.finish_branch_inRange r hpc]
  · rw [Bool.not_true, s.finish_branch_pastTheTop r hpc]

/-- Settles O23: CALL completes where SP is not 0 and the return address fits a byte, and from 254 up raises before it
looks at SP. -/
theorem callPushesReturnAddressAndJumps : Obligations.CallPushesReturnAddressAndJumps :=
  ⟨fun r _ hsp hpc => exec_call_regByte r hpc hsp, exec_call_regByte_outOfRange⟩

/-- Settles O24: it is RET of `popAndRetForEverySentinel` at the default sentinel 0xF4. -/
theorem retPopsThePc : Obligations.RetPopsThePc := by
  obtain ⟨-, -, hret, -⟩ := popAndRetForEverySentinel
  exact fun s hsp => (exec_eq_execFor _ s).trans (hret Config.params s hsp)

/-- Settles O42: CALL leaves SP one lower, below 0xF4, with the return address at it; RET raises SP by one and pops
it. -/
theorem callRetResumesAfterTheCall : Obligations.CallRetResumesAfterTheCall := by
  intro r s hbottom hempty hpc
  have hsp : s.x[7] ≠ 0 := fun h => by simp [h] at hbottom
  have hlow : (s.x[7] - 1 : Byte).toNat = s.x[7].toNat - 1 := State.spDec_toNat hsp
  refine ⟨_, callPushesReturnAddressAndJumps.1 r s hsp hpc, fun u husp hutop => ?_⟩
  rw [Vector.getElem_set_self] at husp hutop
  rw [hlow, Memory.read_write_same] at hutop
  have hret : u.x[7].toNat < 0xF4 := by
    rw [husp]
    omega
  refine ⟨_, retPopsThePc u hret, hutop, ?_, rfl⟩
  rw [Vector.getElem_set_self, husp, BitVec.sub_add_cancel]

/-! The jump to itself -/

/-- A step of a JMP to its own address fills the latches and changes nothing else (44 R183). -/
theorem step_jump_to_itself {r : RegIndex} {rest : List Byte} {s : State} (hs : s.status = .running)
    (hdec : decode s.bytesFrom = .ok (.jmp (regByte r)) rest) (hself : s.x[r] = s.pc) :
    step s = .next (s.latch [regByte r]) := by
  have hpc : (s.latch [regByte r]).x[r] = (s.latch [regByte r]).pc := hself
  calc step s = exec (.jmp (regByte r)) (s.latch [regByte r]) := stepWith_of_decodeWith opcodeMap_valid hs hdec
    _ = .next (s.latch [regByte r]) := by rw [exec_jmp_regByte, hpc]

/-- Settles O51, by induction on the budget: the step leaves a state that jumps to itself again. -/
theorem jumpToItselfNeverEnds : Obligations.JumpToItselfNeverEnds := by
  intro r rest s hs hdec hself fuel
  induction fuel generalizing s with
  | zero => exact ⟨s, rfl, hs, rfl, rfl, rfl⟩
  | succ fuel ih =>
    obtain ⟨t, hrun, ht⟩ := ih (s.latch [regByte r]) hs hdec hself
    exact ⟨t, (run_succ_of_step (M := core) (step_jump_to_itself hs hdec hself) fuel).trans hrun, ht⟩

end Sys2Proof.Machine
end

section
/-! PROOFS. Which instruction raises which fault, and the codes of the status port (60 R200 to R204, R210). -/

namespace Sys2Proof.Machine

/-- Settles O57: the codes are those of `Status.code` and `FaultKind.code`. -/
theorem statusCodes : Obligations.StatusCodes :=
  ⟨rfl, rfl, rfl, fun _ _ _ => ⟨rfl, rfl, rfl, rfl, rfl⟩⟩

/-! The register operands of an instruction that passes the operand check (40 R108) -/

@[simp] theorem decide_seven_lt_regByte (r : RegIndex) : decide (7 < (regByte r).toNat) = false := by
  rw [decide_eq_false_iff_not, regByte_toNat]
  omega

/-- An instruction with a register operand above 7 answers BadRegister for the first, whatever else its state holds. -/
theorem ExecAnswer.of_bad {empty : Byte} {s t : State} {i : Instr} {b : Byte} (h : ExecAnswer empty s i t)
    (hb : i.regOperands.find? (fun r => decide (7 < r.toNat)) = some b) :
    t = s.raise .badRegister (some (byteDetail b)) := by
  cases h
  case badRegister a ha => rw [Option.some.inj (ha.symm.trans hb)]
  all_goals simp [Instr.regOperands] at hb

/-- What must hold of an instruction and its state where `exec` raises a fault of this kind with this detail: for
StackOverflow, StackUnderflow and BadRegister the causes of 60 R202 to R204; no DecodeError is raised, and of
AddressOutOfRange nothing is said here. -/
def RaisedBy (empty : Byte) (i : Instr) (s : State) (d : Option Detail) : FaultKind → Prop
  | .decodeError => False
  | .stackOverflow => s.x[7] = 0 ∧ ∃ a, i = .push a ∨ i = .call a
  | .stackUnderflow => empty.toNat ≤ s.x[7].toNat ∧ ((∃ a, i = .pop a) ∨ i = .ret)
  | .badRegister => ∃ b ∈ i.regOperands, 7 < b.toNat ∧ d = some (byteDetail b)
  | .addressOutOfRange => True

/-- The advance raises AddressOutOfRange alone. -/
theorem State.kind_of_advance_fault {s : State} {n : Nat} {r : FaultRecord} (hs : s.status = .running)
    (h : (s.advance n).status = .fault r) : r.kind = .addressOutOfRange := by
  rcases s.advance_status n with ⟨hsame, -⟩ | ⟨hfault, -⟩
  · cases hs.symm.trans (hsame.symm.trans h)
  · cases hfault.symm.trans h
    rfl

/-- A RUNNING instruction raises a fault only where its kind's cause holds. -/
theorem ExecAnswer.raisedBy {empty : Byte} {s t : State} {i : Instr} {r : FaultRecord} (h : ExecAnswer empty s i t)
    (hs : s.status = .running) (hr : t.status = .fault r) : RaisedBy empty i s r.detail r.kind := by
  cases h
  case badRegister a ha =>
    cases hr
    exact ⟨a, List.mem_of_find?_eq_some ha, by simpa using List.find?_some ha, rfl⟩
  case pushOverflow q hsp => cases hr; exact ⟨hsp, _, .inl rfl⟩
  case callOverflow q hpc hsp => cases hr; exact ⟨hsp, _, .inr rfl⟩
  case popUnderflow q hsp => cases hr; exact ⟨hsp, .inl ⟨_, rfl⟩⟩
  case retUnderflow hsp => cases hr; exact ⟨hsp, .inr rfl⟩
  case callOutOfRange => cases hr; trivial
  case ldi | prn | mul | add | cmp | push | pop | jeqNotTaken | jneNotTaken =>
    rw [State.kind_of_advance_fault (by exact hs) hr]
    trivial
  case hlt => cases hr
  case call | ret | jmp | jeqTaken | jneTaken => cases hs.symm.trans hr

theorem exec_raisedBy {s t : State} {i : Instr} {r : FaultRecord} {k : FaultKind} (hs : s.status = .running)
    (h : exec i s = .next t) (hr : t.status = .fault r) (hk : r.kind = k) :
    RaisedBy Config.stackEmpty i s r.detail k :=
  hk ▸ (exec_cases h).raisedBy hs hr

/-- Settles O28: the answer with a bad operand is BadRegister, and BadRegister is raised by a bad operand. -/
theorem badRegisterExactlyOnOperandsAboveSeven : Obligations.BadRegisterExactlyOnOperandsAboveSeven := by
  refine ⟨fun i s b hb => ?_, fun i s t r hs h hr hkind => exec_raisedBy hs h hr hkind⟩
  obtain ⟨t, ht, hanswer⟩ := exec_answer i s
  rw [ht, hanswer.of_bad hb]
  rfl

theorem exec_push_overflow (r : RegIndex) {s : State} (h : s.x[7] = 0) :
    exec (.push (regByte r)) s = .next (s.faulted .stackOverflow (some 0)) := by
  rw [exec, execPush, State.withReg_regByte, handlePush_overflow r h]
  rfl

theorem exec_call_overflow (r : RegIndex) {s : State} (hpc : s.pc.toNat ≤ 253) (h : s.x[7] = 0) :
    exec (.call (regByte r)) s = .next (s.faulted .stackOverflow (some 0)) := by
  rw [exec, execCall, State.withReg_regByte, handleCall_overflow r hpc h]
  rfl

/-- Settles O29: the handlers of PUSH and CALL check SP before they write, and no other has that check. -/
theorem stackOverflowExactlyOnPushAtZero : Obligations.StackOverflowExactlyOnPushAtZero :=
  ⟨fun r _ hsp => exec_push_overflow r hsp, fun r _ hsp hpc => exec_call_overflow r hpc hsp,
    fun _ _ _ _ hs h hr hkind => exec_raisedBy hs h hr hkind⟩

/-- Settles O30: from the sentinel up POP and RET raise as `popAndRetForEverySentinel` says, and no other handler has
that check. -/
theorem stackUnderflowExactlyOnPopWhenEmpty : Obligations.StackUnderflowExactlyOnPopWhenEmpty :=
  ⟨fun r s hsp => (exec_eq_execFor _ s).trans (execFor_pop_of_ge (p := Config.params) r hsp),
    fun s hsp => (exec_eq_execFor _ s).trans (execFor_ret_of_ge (p := Config.params) hsp),
    fun _ _ _ _ hs h hr hkind => exec_raisedBy hs h hr hkind⟩

end Sys2Proof.Machine
end

section
/-! PROOFS. HALTED is HLT's alone (60 R210), and DecodeError the fault of the bytes without a row (60 R201). -/

namespace Sys2Proof.Machine

/-- A step ends HALTED only by running HLT: the fetch raises faults alone, and no other instruction halts. -/
theorem opcodeAt_of_step_halted {s t : State} (hs : s.status = .running) (h : step s = .next t)
    (ht : t.status = .halted) : s.opcodeAt = Config.opcodeMap .hlt := by
  rcases step_cases h with ⟨hne, -⟩ | ⟨-, hstop | ⟨i, hf, hexec⟩⟩
  · exact absurd hs hne
  · obtain ⟨bs, k, d, rfl, -⟩ := State.fetch_eq_stop hstop
    cases ht
  · rcases exec_status hexec with hsame | ⟨rfl, -⟩ | ⟨k, d, hfault, -⟩
    · cases (hsame.symm.trans ht).symm.trans hs
    · exact State.opcodeAt_of_fetch hf
    · cases ht.symm.trans hfault

theorem FaultKind.code_ne_halted (k : FaultKind) : k.code ≠ Status.halted.code := by
  cases k <;> decide

theorem Status.exitCode_fault_ne_zero (r : FaultRecord) : (Status.fault r).exitCode ≠ some 0 := fun h =>
  (Config.exitErr _).ne_zero (Option.some.inj h)

/-- Settles O33: by `hltHalts` HLT ends HALTED, and by `opcodeAt_of_step_halted` nothing else does. -/
theorem hltIsTheOnlyNormalTermination : Obligations.HltIsTheOnlyNormalTermination := by
  refine ⟨fun s t hs h => ⟨opcodeAt_of_step_halted hs h, fun hop => ?_⟩, FaultKind.code_ne_halted, rfl,
    Status.exitCode_fault_ne_zero⟩
  obtain ⟨u, hu, hhalted, -⟩ := hltHalts.2 s hs hop
  cases h.symm.trans hu
  exact hhalted

/-- The record a step sets names its instruction, and the spec can produce it. -/
theorem step_fault_possible {s t : State} {r : FaultRecord} (hs : s.status = .running) (h : step s = .next t)
    (hr : t.status = .fault r) : r.pc = s.pc ∧ r.opcode = s.opcodeAt ∧ r.Possible := by
  rcases step_cases h with ⟨hne, -⟩ | ⟨-, hstop | ⟨i, hf, hexec⟩⟩
  · exact absurd hs hne
  · obtain ⟨bs, k, d, rfl, hposs⟩ := State.fetch_eq_stop hstop
    cases hr
    exact ⟨rfl, rfl, hposs⟩
  · rcases exec_status hexec with hsame | ⟨-, hhalted⟩ | ⟨k, d, hfault, -, hposs⟩
    · cases (hsame.symm.trans hr).symm.trans hs
    · cases hhalted.symm.trans hr
    · cases hfault.symm.trans hr
      exact ⟨rfl, rfl, hposs (State.opcodeAt_of_fetch hf)⟩

theorem FaultRecord.Possible.not_row {r : FaultRecord} (h : r.Possible) (hkind : r.kind = .decodeError) :
    ∀ g, Config.opcodeMap g ≠ r.opcode := by
  obtain ⟨k, pc, op, d⟩ := r
  subst hkind
  cases d with
  | none => exact h
  | some d => exact h.elim

theorem step_of_not_row {s : State} (hs : s.status = .running) (h : ∀ g, Config.opcodeMap g ≠ s.opcodeAt) :
    step s = .next s.decodeFault := by
  rcases s.fetch_cases with ⟨-, hstop⟩ | ⟨g, hg, -⟩
  · exact step_of_fetch_stop hs hstop
  · exact absurd hg (h g)

/-- No row's byte has this number. -/
def noRowAt (n : Nat) : Bool := Mnemonic.all.all fun h => Config.opcodeMap h != BitVec.ofNat 8 n

/-- The numbers of the rows' bytes, each once. -/
theorem perm_filter_row :
    ((List.range 256).filter fun n => !noRowAt n).Perm (Mnemonic.all.map fun h => (Config.opcodeMap h).toNat) := by
  refine (List.perm_ext_iff_of_nodup (List.nodup_range.filter _) (by decide)).2 fun n => ?_
  have hrow : ∀ h, n < 256 ∧ Config.opcodeMap h = BitVec.ofNat 8 n ↔ (Config.opcodeMap h).toNat = n := fun h => by
    have := (Config.opcodeMap h).isLt
    rw [BitVec.toNat_eq, BitVec.toNat_ofNat]
    omega
  simp [noRowAt, ← hrow, ← exists_and_left, and_left_comm]

/-- Of the 256 bytes thirteen are a row's. -/
theorem length_filter_noRowAt : ((List.range 256).filter noRowAt).length = 243 := by
  have hsplit := List.length_eq_length_filter_add (l := List.range 256) noRowAt
  have hrows : Mnemonic.all.length = 13 := rfl
  rw [perm_filter_row.length_eq, List.length_range, List.length_map, hrows] at hsplit
  omega

/-- Settles O10: without a row the fetch stops with the decode fault, which changes the latches alone besides the
status; a record of DecodeError names a byte that is no row's; the bytes without a row are counted. -/
theorem decodeErrorExactlyOnBytesWithoutHandler : Obligations.DecodeErrorExactlyOnBytesWithoutHandler := by
  refine ⟨fun s hs hnone => ⟨_, step_of_not_row hs hnone, rfl, rfl, rfl, rfl, rfl, rfl⟩,
    fun s t r h hs hop hstep hr hkind => ?_, length_filter_noRowAt, fun h => ?_, fun h => ?_⟩
  · obtain ⟨-, hopcode, hposs⟩ := step_fault_possible hs hstep hr
    exact hposs.not_row hkind h (hop.trans hopcode.symm)
  · cases h <;> decide
  · cases h <;> decide

end Sys2Proof.Machine
end

section
/-! PROOFS. The checks of a step in the order of 60 R209, read for the row at the pc and for the instruction there. -/

namespace Sys2Proof.Machine

/-! The checks where no row, or a known row, is at the pc -/

section
variable {p : Params} {m : OpcodeMap} {s : State} {h : Mnemonic}

theorem State.opcodeIn_of_row (hm : m.Valid) (hop : m h = s.opcodeAt) (rows : List Mnemonic) :
    s.opcodeIn m rows = decide (h ∈ rows) := by
  rw [Bool.eq_iff_iff, State.opcodeIn_iff, decide_eq_true_iff, ← hop]
  exact ⟨fun ⟨g, hg, e⟩ => hm.1 g h e ▸ hg, fun hh => ⟨h, hh, rfl⟩⟩

theorem State.opcodeIn_singleton : s.opcodeIn m [h] = true ↔ m h = s.opcodeAt := by
  simp [State.opcodeIn]

theorem State.opcodeIn_mono {rows more : List Mnemonic} (hsub : rows ⊆ more) (hin : s.opcodeIn m rows = true) :
    s.opcodeIn m more = true := by
  obtain ⟨g, hg, hop⟩ := State.opcodeIn_iff.1 hin
  exact State.opcodeIn_iff.2 ⟨g, hsub hg, hop⟩

theorem State.topTwoBits_of_row (hm : m.Valid) (hop : m h = s.opcodeAt) :
    s.opcodeAt.toNat / 64 = h.format.operandCount := by
  rw [← operandCount_eq, ← hop, hm.2]

theorem State.decodeCheck_of_row (hm : p.opcodeMap.Valid) (hop : p.opcodeMap h = s.opcodeAt) :
    s.decodeCheck p = none := by
  rw [State.decodeCheck, State.opcodeIn_of_row hm hop, decide_eq_true (Mnemonic.mem_all h), if_pos rfl]

theorem State.decodeCheck_of_not_row (hnone : ∀ h, p.opcodeMap h ≠ s.opcodeAt) :
    s.decodeCheck p = some ⟨.decodeError, none⟩ :=
  if_neg fun hin => (State.opcodeIn_iff.1 hin).elim fun h hh => hnone h hh.2

theorem State.rangeCheck_of_row (hm : m.Valid) (hop : m h = s.opcodeAt) (k : Nat) :
    s.rangeCheck k = if k ≤ h.format.operandCount ∧ 255 < s.pc.toNat + k then
      some ⟨.addressOutOfRange, some (addressDetail (s.pc.toNat + k))⟩ else none := by
  rw [State.rangeCheck, State.topTwoBits_of_row hm hop]

/-- Where all operand bytes are below the top, their fetch does not fault. -/
theorem State.rangeCheck_of_inRange (hm : m.Valid) (hop : m h = s.opcodeAt)
    (hpc : s.pc.toNat + h.format.operandCount ≤ 255) (k : Nat) : s.rangeCheck k = none := by
  rw [State.rangeCheck_of_row hm hop, if_neg]
  omega

end

/-! The register checks as one check of the instruction's register operands (40 R108) -/

/-- How many of a format's operands are registers; they are the first ones (30 R76). -/
def registerCount : Format → Nat
  | .f0 => 0
  | .f1R => 1
  | .f2RR => 2
  | .f2RI => 1

theorem regOperands_instr (h : Mnemonic) (a b : Byte) :
    (h.instr a b).regOperands = [a, b].take (registerCount h.format) := by
  cases h <;> rfl

/-- The rows in which operand byte A is a register (`A_IS_REG`, 40 R105). -/
theorem registerCount_pos_iff (h : Mnemonic) :
    h ∈ [.ldi, .prn, .mul, .add, .push, .pop, .call, .cmp, .jmp, .jeq, .jne] ↔ 1 ≤ registerCount h.format := by
  cases h <;> decide

/-- The rows in which operand byte B is a register (`B_IS_REG`, 40 R105). -/
theorem registerCount_two_iff (h : Mnemonic) : h ∈ [.mul, .add, .cmp] ↔ 2 ≤ registerCount h.format := by
  cases h <;> decide

/-- BadRegister on the first register operand above 7. -/
def registerFault (i : Instr) : Option FaultCause :=
  (i.regOperands.find? fun r => decide (7 < r.toNat)).map fun r => ⟨.badRegister, some (byteDetail r)⟩

theorem registerFault_eq_some {i : Instr} {a : Byte}
    (h : i.regOperands.find? (fun r => decide (7 < r.toNat)) = some a) :
    registerFault i = some ⟨.badRegister, some (byteDetail a)⟩ := by
  rw [registerFault, h, Option.map_some]

theorem registerFault_orElse {i : Instr} (h : i.regOperands.find? (fun r => decide (7 < r.toNat)) = none)
    (next : Option FaultCause) : (registerFault i <|> next) = next := by
  rw [registerFault, h]
  rfl

/-- Both register checks and whatever check comes after them, for an instruction built from the bytes after the
opcode. -/
theorem State.registerChecks_eq {m : OpcodeMap} (hm : m.Valid) {s : State} {h : Mnemonic} (hop : m h = s.opcodeAt)
    {a b : Byte} (ha : 1 ≤ registerCount h.format → a = Memory.read s.mem (s.pc.toNat + 1))
    (hb : 2 ≤ registerCount h.format → b = Memory.read s.mem (s.pc.toNat + 2)) (next : Option FaultCause) :
    (s.registerCheck m [.ldi, .prn, .mul, .add, .push, .pop, .call, .cmp, .jmp, .jeq, .jne] 1 <|>
      s.registerCheck m [.mul, .add, .cmp] 2 <|> next) = (registerFault (h.instr a b) <|> next) := by
  simp only [State.registerCheck, State.opcodeIn_of_row hm hop, decide_eq_true_iff, registerCount_pos_iff,
    registerCount_two_iff, registerFault, regOperands_instr]
  cases hf : h.format <;> simp only [hf, registerCount] at ha hb ⊢
  case f0 => simp
  case f1R | f2RI =>
    obtain rfl := ha le_rfl
    by_cases hA : 7 < (Memory.read s.mem (s.pc.toNat + 1)).toNat <;> simp [hA]
  case f2RR =>
    obtain rfl := ha (by decide)
    obtain rfl := hb le_rfl
    by_cases hA : 7 < (Memory.read s.mem (s.pc.toNat + 1)).toNat <;>
      by_cases hB : 7 < (Memory.read s.mem (s.pc.toNat + 2)).toNat <;> simp [hA, hB]

/-! The handlers' checks by row (60 R202, R203, R205) -/

section
variable {p : Params} {s : State} {h : Mnemonic}

theorem State.handlerCheck_push (hm : p.opcodeMap.Valid) (hop : p.opcodeMap .push = s.opcodeAt) :
    s.handlerCheck p = if s.x[7] = 0 then some ⟨.stackOverflow, some 0⟩ else none := by
  simp [State.handlerCheck, State.opcodeIn_of_row hm hop]

theorem State.handlerCheck_call (hm : p.opcodeMap.Valid) (hop : p.opcodeMap .call = s.opcodeAt) :
    s.handlerCheck p = if 255 < s.pc.toNat + 2 then
        some ⟨.addressOutOfRange, some (addressDetail (s.pc.toNat + 2))⟩
      else if s.x[7] = 0 then some ⟨.stackOverflow, some 0⟩ else none := by
  simp [State.handlerCheck, State.opcodeIn_of_row hm hop]

theorem State.handlerCheck_pop_ret (hm : p.opcodeMap.Valid) (hop : p.opcodeMap h = s.opcodeAt)
    (hrow : h ∈ [.pop, .ret]) :
    s.handlerCheck p = if p.stackEmpty.toNat ≤ s.x[7].toNat then
      some ⟨.stackUnderflow, some (byteDetail s.x[7])⟩ else none := by
  have hother : h ∉ [.call] ∧ h ∉ [.push, .call] := by cases h <;> simp at hrow ⊢
  simp only [State.handlerCheck, State.opcodeIn_of_row hm hop, hrow, hother, decide_true, decide_false,
    Bool.false_eq_true, false_and, true_and, if_false]

theorem State.handlerCheck_of_no_stack (hm : p.opcodeMap.Valid) (hop : p.opcodeMap h = s.opcodeAt)
    (hrow : h ∉ [.push, .pop, .call, .ret]) : s.handlerCheck p = none := by
  have hother : h ∉ [.call] ∧ h ∉ [.push, .call] ∧ h ∉ [.pop, .ret] := by cases h <;> simp at hrow ⊢
  simp only [State.handlerCheck, State.opcodeIn_of_row hm hop, hother, decide_false, Bool.false_eq_true, false_and,
    if_false]

end

/-! The fetch: what stops it, and what is left to check when it runs an instruction -/

theorem registerCount_le_operandCount (f : Format) : registerCount f ≤ f.operandCount := by cases f <;> decide

/-- Where a row's operand bytes are below the top, the checks left are those of the instruction. -/
theorem State.earlyFault_of_inRange {p : Params} (hm : p.opcodeMap.Valid) {s : State} {h : Mnemonic}
    (hop : p.opcodeMap h = s.opcodeAt) (hpc : s.pc.toNat + h.format.operandCount ≤ 255) {a b : Byte}
    (ha : 1 ≤ h.format.operandCount → a = Memory.read s.mem (s.pc.toNat + 1))
    (hb : 2 ≤ h.format.operandCount → b = Memory.read s.mem (s.pc.toNat + 2)) :
    s.earlyFault p = (registerFault (h.instr a b) <|> s.handlerCheck p) := by
  have hcount := registerCount_le_operandCount h.format
  rw [State.earlyFault, State.decodeCheck_of_row hm hop, State.rangeCheck_of_inRange hm hop hpc,
    State.rangeCheck_of_inRange hm hop hpc,
    State.registerChecks_eq hm hop (fun h1 => ha (h1.trans hcount)) fun h2 => hb (h2.trans hcount)]
  rfl

/-- A fetch stops with the first fault of a step, or runs an instruction and leaves its own checks. -/
theorem State.fetchWith_faults_or_runs {p : Params} (hm : p.opcodeMap.Valid) (s : State) :
    (∃ bs c, s.fetchWith p.opcodeMap = .stop ((s.latch bs).raise c.kind c.detail) ∧ s.earlyFault p = some c) ∨
    ∃ i, s.fetchWith p.opcodeMap = .run i (s.latch i.operandBytes) ∧
      s.earlyFault p = (registerFault i <|> s.handlerCheck p) := by
  rcases s.fetchWith_cases hm with ⟨hnone, e⟩ | ⟨h, hop, hcase⟩
  · refine .inl ⟨[], ⟨.decodeError, none⟩, e, ?_⟩
    rw [State.earlyFault, State.decodeCheck_of_not_row hnone]
    rfl
  have hstop : ∀ k, k ≤ h.format.operandCount → 255 < s.pc.toNat + k →
      s.rangeCheck k = some ⟨.addressOutOfRange, some (addressDetail (s.pc.toNat + k))⟩ := fun k hk hpast => by
    rw [State.rangeCheck_of_row hm hop, if_pos ⟨hk, hpast⟩]
  have hrun : ∀ a b u, s.fetchWith p.opcodeMap = .run (h.instr a b) u →
      s.fetchWith p.opcodeMap = .run (h.instr a b) (s.latch (h.instr a b).operandBytes) := fun a b u e => by
    obtain ⟨-, rfl⟩ := (State.fetchWith_eq_run hm).1 e
    exact e
  rcases hcase with ⟨hn, e⟩ | ⟨hn, hpc, e⟩ | ⟨hn, hpc, e⟩ | ⟨hn, hle, hpc, e⟩ | ⟨hn, hpc, e⟩
  · exact .inr ⟨_, hrun _ _ _ e, State.earlyFault_of_inRange hm hop (by omega) (by omega) (by omega)⟩
  · refine .inl ⟨_, ⟨.addressOutOfRange, _⟩, e, ?_⟩
    rw [State.earlyFault, State.decodeCheck_of_row hm hop, hstop 1 hn hpc]
    rfl
  · exact .inr ⟨_, hrun _ _ _ e, State.earlyFault_of_inRange hm hop (by omega) (fun _ => rfl) (by omega)⟩
  · refine .inl ⟨_, ⟨.addressOutOfRange, _⟩, e, ?_⟩
    rw [State.earlyFault, State.decodeCheck_of_row hm hop, State.rangeCheck_of_row hm hop, if_neg (by omega),
      hstop 2 hn.ge hpc]
    rfl
  · exact .inr ⟨_, hrun _ _ _ e, State.earlyFault_of_inRange hm hop (by omega) (fun _ => rfl) (fun _ => rfl)⟩

end Sys2Proof.Machine
end

section
/-! PROOFS. The execution stage: an instruction raises what its own checks find, or completes (60 R209); so the status
after a step is the first fault. -/

namespace Sys2Proof.Machine

/-- The state `u` with all that `exec` reads of `s` but the pc and `ir`. -/
def State.withData (u s : State) : State :=
  { u with x := s.x, mem := s.mem, fl := s.fl, out := s.out, status := s.status }

/-- The end in `t` of an instruction no early fault stops: the advance from its effects, which are the same wherever it
stands, or its end by a jump or HLT. -/
inductive Completes (p : Params) (i : Instr) (s : State) : State → Prop
  | advances (v : State) (hcont : continuesAfter i s.fl = true) (hst : v.status = s.status)
      (hall : ∀ u : State, execFor p i (u.withData s) =
        .next ((u.withData v).advance i.mnemonic.format.operandCount)) :
      Completes p i s ((s.withData v).advance i.mnemonic.format.operandCount)
  | ends (t : State) (hcont : continuesAfter i s.fl = false)
      (hst : t.status = if i = .hlt then .halted else s.status) : Completes p i s t

theorem exec_jeq_notTaken (r : RegIndex) {s : State} (he : s.fl.e = false) :
    exec (.jeq (regByte r)) s = .next (s.advance 1) := by
  rw [exec_jeq_regByte, he, State.finish_branch_notTaken]

theorem exec_jne_notTaken (r : RegIndex) {s : State} (he : s.fl.e = true) :
    exec (.jne (regByte r)) s = .next (s.advance 1) := by
  rw [exec_jne_regByte, he, Bool.not_true, State.finish_branch_notTaken]

/-- An instruction raises what its checks find, and completes where they find nothing. -/
theorem ExecAnswer.raises_or_completes {p : Params} (hm : p.opcodeMap.Valid) {i : Instr} {s t : State}
    (hop : p.opcodeMap i.mnemonic = s.opcodeAt) (h : ExecAnswer p.stackEmpty s i t) :
    (∃ c, (registerFault i <|> s.handlerCheck p) = some c ∧ t = s.raise c.kind c.detail) ∨
      ((registerFault i <|> s.handlerCheck p) = none ∧ Completes p i s t) := by
  cases h
  case badRegister a ha => exact .inl ⟨_, by rw [registerFault_eq_some ha]; rfl, rfl⟩
  all_goals rw [registerFault_orElse (by simp [Instr.regOperands])]
  case pushOverflow r hsp =>
    exact .inl ⟨_, (State.handlerCheck_push hm hop).trans (if_pos hsp), rfl⟩
  case push r hsp =>
    exact .inr ⟨(State.handlerCheck_push hm hop).trans (if_neg hsp),
      .advances (s.pushed r) rfl rfl fun u => exec_push_eq_pushed (s := u.withData s) r hsp⟩
  case callOutOfRange r hpc =>
    exact .inl ⟨_, (State.handlerCheck_call hm hop).trans (if_pos (by omega)), rfl⟩
  case callOverflow r hpc hsp =>
    exact .inl ⟨_, (State.handlerCheck_call hm hop).trans ((if_neg (by omega)).trans (if_pos hsp)), rfl⟩
  case call r hpc hsp =>
    exact .inr ⟨(State.handlerCheck_call hm hop).trans ((if_neg (by omega)).trans (if_neg hsp)), .ends _ rfl rfl⟩
  case popUnderflow r hsp =>
    exact .inl ⟨_, (State.handlerCheck_pop_ret hm hop (.head _)).trans (if_pos hsp), rfl⟩
  case pop r hsp =>
    exact .inr ⟨(State.handlerCheck_pop_ret hm hop (.head _)).trans (if_neg (Nat.not_le.2 hsp)),
      .advances (s.popped r) rfl rfl fun u => execFor_pop_of_lt (s := u.withData s) r hsp⟩
  case retUnderflow hsp =>
    exact .inl ⟨_, (State.handlerCheck_pop_ret hm hop (.tail _ (.head _))).trans (if_pos hsp), rfl⟩
  case ret hsp =>
    exact .inr ⟨(State.handlerCheck_pop_ret hm hop (.tail _ (.head _))).trans (if_neg (Nat.not_le.2 hsp)),
      .ends _ rfl rfl⟩
  all_goals refine .inr ⟨State.handlerCheck_of_no_stack hm hop (by simp [Instr.mnemonic]), ?_⟩
  case hlt | jmp => exact .ends _ rfl rfl
  case ldi r v => exact .advances (s.setReg r v) rfl rfl fun u => exec_ldi_regByte r v _
  case prn r => exact .advances (s.emit (s.reg r)) rfl rfl fun u => exec_prn_regByte r _
  case mul r q => exact .advances (s.setReg r (aluMul (s.reg r) (s.reg q))) rfl rfl fun u => exec_mul_regByte r q _
  case add r q => exact .advances (s.setReg r (aluAdd (s.reg r) (s.reg q))) rfl rfl fun u => exec_add_regByte r q _
  case cmp r q =>
    exact .advances (s.setFlags (aluCompare (s.reg r) (s.reg q))) rfl rfl fun u => exec_cmp_regByte r q _
  case jeqTaken r he => exact .ends _ (by rw [continuesAfter, he]; rfl) rfl
  case jeqNotTaken r he =>
    exact .advances s (by rw [continuesAfter, he]; rfl) rfl fun u => exec_jeq_notTaken (s := u.withData s) r he
  case jneTaken r he => exact .ends _ he rfl
  case jneNotTaken r he => exact .advances s he rfl fun u => exec_jne_notTaken (s := u.withData s) r he

theorem State.opcodeAt_of_fetchWith {m : OpcodeMap} (hm : m.Valid) {s u : State} {i : Instr}
    (h : s.fetchWith m = .run i u) : s.opcodeAt = m i.mnemonic := by
  obtain ⟨⟨rest, hdec⟩, -⟩ := (State.fetchWith_eq_run hm).1 h
  exact State.opcodeAt_of_bytesFrom ((decodeWith_eq_ok hm).1 hdec)

/-- Everything a RUNNING step can do, for any parameters: raise its first early fault, or with none complete the
instruction it has fetched. -/
theorem stepFor_faults_or_completes {p : Params} (hm : p.opcodeMap.Valid) {s : State} (hs : s.status = .running) :
    (∃ bs c, stepFor p s = .next ((s.latch bs).raise c.kind c.detail) ∧ s.earlyFault p = some c) ∨
    (s.earlyFault p = none ∧ ∃ i t, s.fetchWith p.opcodeMap = .run i (s.latch i.operandBytes) ∧
      stepFor p s = .next t ∧ Completes p i (s.latch i.operandBytes) t) := by
  rw [stepFor, stepWith_running hs]
  rcases s.fetchWith_faults_or_runs hm with ⟨bs, c, e, hc⟩ | ⟨i, e, hearly⟩
  · exact .inl ⟨bs, c, by rw [e], hc⟩
  · obtain ⟨t, ht, hanswer⟩ := execFor_answer p i (s.latch i.operandBytes)
    have hop : p.opcodeMap i.mnemonic = (s.latch i.operandBytes).opcodeAt := (State.opcodeAt_of_fetchWith hm e).symm
    rw [e, hearly]
    rcases hanswer.raises_or_completes hm hop with ⟨c, hc, rfl⟩ | ⟨hnone, hends⟩
    · exact .inl ⟨_, c, ht, hc⟩
    · exact .inr ⟨hnone, i, t, rfl, ht, hends⟩

/-! The last check: the advance (40 R111, 92 D10) -/

theorem State.advanceCheck_of_row {p : Params} (hm : p.opcodeMap.Valid) {s : State} {i : Instr}
    (hop : p.opcodeMap i.mnemonic = s.opcodeAt) :
    s.advanceCheck p =
      if continuesAfter i s.fl = true ∧ 255 < s.pc.toNat + 1 + i.mnemonic.format.operandCount then
        some ⟨.addressOutOfRange, some (addressDetail (s.pc.toNat + 1 + i.mnemonic.format.operandCount))⟩
      else none := by
  have hcont : (i.mnemonic ∈ [.ldi, .prn, .mul, .add, .push, .pop, .cmp] ∨
      (i.mnemonic ∈ [.jeq] ∧ s.fl.e = false) ∨ (i.mnemonic ∈ [.jne] ∧ s.fl.e = true)) ↔
      continuesAfter i s.fl = true := by
    cases i <;> simp [Instr.mnemonic, continuesAfter]
  simp only [State.advanceCheck, State.topTwoBits_of_row hm hop, State.opcodeIn_of_row hm hop, decide_eq_true_iff,
    hcont]

/-- HLT does not continue. -/
theorem ne_hlt_of_continues {i : Instr} {f : Flags} (h : continuesAfter i f = true) : i ≠ .hlt := by
  rintro rfl
  cases h

/-- The status of a RUNNING instruction that no early fault stops: the advance fault where its check finds one, else
HALTED by HLT and RUNNING by the others. -/
theorem Completes.status_cases {p : Params} (hm : p.opcodeMap.Valid) {i : Instr} {s t : State}
    (hop : p.opcodeMap i.mnemonic = s.opcodeAt) (hs : s.status = .running) (h : Completes p i s t) :
    (∃ c, s.advanceCheck p = some c ∧ t.status = .fault ⟨c.kind, s.pc, s.ir, c.detail⟩) ∨
      (s.advanceCheck p = none ∧ t.status = if i = .hlt then .halted else .running) := by
  rw [State.advanceCheck_of_row hm hop]
  cases h
  case advances v hcont hst hall =>
    rcases (s.withData v).advance_status _ with ⟨hsame, -, hle⟩ | ⟨hfault, -, hpast⟩
    · refine .inr ⟨if_neg fun hc => Nat.not_lt.2 hle hc.2, ?_⟩
      rw [if_neg (ne_hlt_of_continues hcont), hsame]
      exact hst.trans hs
    · exact .inl ⟨_, if_pos ⟨hcont, hpast⟩, hfault⟩
  case ends hcont hst =>
    refine .inr ⟨if_neg fun hc => ?_, hs ▸ hst⟩
    cases hcont.symm.trans hc.1

theorem mnemonic_eq_hlt {i : Instr} : i.mnemonic = .hlt ↔ i = .hlt := by
  cases i <;> simp [Instr.mnemonic]

/-- Settles O12: a step raises its first early fault, and with none its status is that of the instruction that
completes, the advance fault first. -/
theorem stepStatusIsTheFirstFault : Obligations.StepStatusIsTheFirstFault := by
  intro p s hm hs
  rcases stepFor_faults_or_completes hm hs with ⟨bs, c, hstep, hc⟩ | ⟨hnone, i, t, hf, hstep, hend⟩
  · refine ⟨_, hstep, ?_⟩
    have hfirst : s.firstFault p = some c := by rw [State.firstFault, hc]; rfl
    rw [hfirst]
    rfl
  · refine ⟨t, hstep, ?_⟩
    have hfirst : s.firstFault p = s.advanceCheck p := by rw [State.firstFault, hnone]; rfl
    have hop := State.opcodeAt_of_fetchWith hm hf
    have hop' : p.opcodeMap i.mnemonic = (s.latch i.operandBytes).opcodeAt := hop.symm
    have hhlt : Memory.read s.mem s.pc.toNat = p.opcodeMap .hlt ↔ i = .hlt := by
      rw [← mnemonic_eq_hlt]
      exact ⟨fun e => hm.1 _ _ (hop.symm.trans e), fun e => e ▸ hop⟩
    rw [hfirst]
    simp only [hhlt]
    rcases hend.status_cases hm hop' hs with ⟨c, hc, hst⟩ | ⟨hc, hst⟩
    · have hc' : s.advanceCheck p = some c := hc
      rw [hst, hc']
      rfl
    · have hc' : s.advanceCheck p = none := hc
      rw [hst, hc']

end Sys2Proof.Machine
end

section
/-! PROOFS. Faults are precise (60 R208). -/

namespace Sys2Proof.Machine

/-- Where a completed instruction ends in a fault, it has advanced past the top; at address 0 it advances in range from
the same effects. -/
theorem Completes.precise {p : Params} {i : Instr} {s t : State} {r : FaultRecord} (h : Completes p i s t)
    (hs : s.status = .running) (hr : t.status = .fault r) :
    t.pc = s.pc ∧ ∀ w : State, w.pc = 0 → ∃ u, execFor p i (w.withData s) = .next u ∧ u.status = .running ∧
      u.pc.toNat = 1 + i.mnemonic.format.operandCount ∧
      t.x = u.x ∧ t.fl = u.fl ∧ t.mem = u.mem ∧ t.out = u.out := by
  cases h
  case advances v hcont hst hall =>
    have hcount := operandCount_le_two i.mnemonic.format
    rcases (s.withData v).advance_status _ with ⟨hsame, -⟩ | ⟨-, hpc, -⟩
    · cases (hst.trans hs).symm.trans (hsame.symm.trans hr)
    · refine ⟨hpc, fun w hw => ⟨_, hall w, ?_⟩⟩
      have hzero : (w.withData v).pc.toNat = 0 := congrArg BitVec.toNat hw
      rw [(w.withData v).advance_inRange (by omega), hzero, Nat.zero_add]
      exact ⟨hst.trans hs, by simp; omega, by simp [State.withData]⟩
  case ends hcont hst =>
    rw [hr] at hst
    split at hst
    · cases hst
    · cases hst.trans hs

/-- Settles O13: an early fault has changed the latches and the status alone; with none, the instruction has completed
up to its advance, from effects that do not depend on its address. -/
theorem faultsArePrecise : Obligations.FaultsArePrecise := by
  intro s t r hs h hr
  rw [step_eq_stepFor] at h
  rcases stepFor_faults_or_completes opcodeMap_valid (p := Config.params) hs with
    ⟨bs, c, hstep, hc⟩ | ⟨hnone, i, u, hf, hstep, hend⟩ <;> cases h.symm.trans hstep
  · exact ⟨rfl, fun _ => ⟨rfl, rfl, rfl, rfl, rfl⟩, fun hnone => absurd hnone (by simp [hc])⟩
  · obtain ⟨hpc, hzero⟩ := hend.precise hs hr
    obtain ⟨u, hu, hst, hlen, heffects⟩ := hzero (s.withPc 0) rfl
    obtain ⟨⟨rest, hdec⟩, -⟩ := (State.fetchWith_eq_run opcodeMap_valid).1 hf
    refine ⟨hpc, fun hsome => absurd hnone hsome, fun _ => ⟨i, rest, u, hdec, ?_, hst, ?_, heffects⟩⟩
    · rw [exec_eq_execFor]
      exact hu
    · rw [hlen, length_encode]

end Sys2Proof.Machine
end

section
/-! PROOFS. The detail of the fault record, from the check that finds the fault (60 R201 to R206). -/

namespace Sys2Proof.Machine

section
variable {p : Params} {s : State} {c : FaultCause}

theorem State.decodeCheck_eq_some (h : s.decodeCheck p = some c) : c = ⟨.decodeError, none⟩ := by
  rw [State.decodeCheck, Option.ite_none_left_eq_some] at h
  exact (Option.some.inj h.2).symm

theorem State.rangeCheck_eq_some {k : Nat} (h : s.rangeCheck k = some c) :
    (k ≤ s.opcodeAt.toNat / 64 ∧ 255 < s.pc.toNat + k) ∧
      c = ⟨.addressOutOfRange, some (addressDetail (s.pc.toNat + k))⟩ := by
  rw [State.rangeCheck, Option.ite_none_right_eq_some] at h
  exact ⟨h.1, (Option.some.inj h.2).symm⟩

theorem State.rangeCheck_eq_none {k : Nat} (h : s.rangeCheck k = none) :
    ¬ (k ≤ s.opcodeAt.toNat / 64 ∧ 255 < s.pc.toNat + k) := fun hc => by
  rw [State.rangeCheck, if_pos hc] at h
  cases h

theorem State.registerCheck_eq_some {m : OpcodeMap} {rows : List Mnemonic} {k : Nat}
    (h : s.registerCheck m rows k = some c) :
    (s.opcodeIn m rows = true ∧ 7 < (Memory.read s.mem (s.pc.toNat + k)).toNat) ∧
      c = ⟨.badRegister, some (byteDetail (Memory.read s.mem (s.pc.toNat + k)))⟩ := by
  rw [State.registerCheck, Option.ite_none_right_eq_some] at h
  exact ⟨h.1, (Option.some.inj h.2).symm⟩

theorem State.registerCheck_eq_none {m : OpcodeMap} {rows : List Mnemonic} {k : Nat}
    (h : s.registerCheck m rows k = none) (hrow : s.opcodeIn m rows = true) :
    ¬ 7 < (Memory.read s.mem (s.pc.toNat + k)).toNat := fun hc => by
  rw [State.registerCheck, if_pos ⟨hrow, hc⟩] at h
  cases h

theorem State.advanceCheck_eq_some (h : s.advanceCheck p = some c) :
    c = ⟨.addressOutOfRange, some (addressDetail (s.pc.toNat + 1 + s.opcodeAt.toNat / 64))⟩ := by
  rw [State.advanceCheck, Option.ite_none_right_eq_some] at h
  exact (Option.some.inj h.2).symm

/-- What the handlers' checks find: CALL's return address, or SP at a bound. -/
theorem State.handlerCheck_eq_some (h : s.handlerCheck p = some c) :
    (s.opcodeIn p.opcodeMap [.call] = true ∧
        c = ⟨.addressOutOfRange, some (addressDetail (s.pc.toNat + 2))⟩) ∨
      c = ⟨.stackOverflow, some (byteDetail s.sp)⟩ ∨ c = ⟨.stackUnderflow, some (byteDetail s.sp)⟩ := by
  unfold State.handlerCheck at h
  split at h
  next hcall => exact .inl ⟨hcall.1, (Option.some.inj h).symm⟩
  split at h
  next hzero =>
    have hsp : s.sp = 0 := hzero.2
    rw [hsp]
    exact .inr (.inl (Option.some.inj h).symm)
  split at h
  next => exact .inr (.inr (Option.some.inj h).symm)
  next => cases h

/-- Past the range checks an AddressOutOfRange names the address after the instruction. -/
theorem State.faultAddress_of_fetched (h1 : s.rangeCheck 1 = none) (h2 : s.rangeCheck 2 = none) :
    s.faultAddress = s.pc.toNat + 1 + s.opcodeAt.toNat / 64 := by
  rw [State.faultAddress, if_neg (State.rangeCheck_eq_none h1), if_neg (State.rangeCheck_eq_none h2)]

theorem eq_some_of_orElse {α : Type} {a b : Option α} {c : α} (h : (a <|> b) = some c) :
    a = some c ∨ (a = none ∧ b = some c) := by
  rwa [Option.orElse_eq_orElse, Option.orElse_eq_or, Option.or_eq_some_iff] at h

/-- The first check that finds a fault before any effect finds the detail the record of its kind must have. -/
theorem State.detail_of_earlyFault (hm : p.opcodeMap.Valid) (h : s.earlyFault p = some c) :
    c.detail = s.faultDetail c.kind := by
  unfold State.earlyFault at h
  rcases eq_some_of_orElse h with hdecode | ⟨-, h⟩
  · rw [State.decodeCheck_eq_some hdecode]
    rfl
  rcases eq_some_of_orElse h with hrange1 | ⟨hfetch1, h⟩
  · obtain ⟨hpast, rfl⟩ := State.rangeCheck_eq_some hrange1
    simp only [State.faultDetail, State.faultAddress, if_pos hpast]
  rcases eq_some_of_orElse h with hrange2 | ⟨hfetch2, h⟩
  · obtain ⟨hpast, rfl⟩ := State.rangeCheck_eq_some hrange2
    simp only [State.faultDetail, State.faultAddress, if_neg (State.rangeCheck_eq_none hfetch1), if_pos hpast]
  rcases eq_some_of_orElse h with hbadA | ⟨hgoodA, h⟩
  · obtain ⟨⟨-, hbad⟩, rfl⟩ := State.registerCheck_eq_some hbadA
    simp only [State.faultDetail, State.offendingOperand, if_pos hbad]
  rcases eq_some_of_orElse h with hbadB | ⟨-, hhandler⟩
  · obtain ⟨⟨hrow, -⟩, rfl⟩ := State.registerCheck_eq_some hbadB
    have hgood := State.registerCheck_eq_none hgoodA (State.opcodeIn_mono (by decide) hrow)
    simp only [State.faultDetail, State.offendingOperand, if_neg hgood]
  rcases State.handlerCheck_eq_some hhandler with ⟨hcall, rfl⟩ | rfl | rfl
  · have hone := State.topTwoBits_of_row hm (State.opcodeIn_singleton.1 hcall)
    rw [State.faultDetail, State.faultAddress_of_fetched hfetch1 hfetch2, hone]
    rfl
  · rfl
  · rfl

theorem State.rangeChecks_of_earlyFault_none (h : s.earlyFault p = none) :
    s.rangeCheck 1 = none ∧ s.rangeCheck 2 = none := by
  simp only [State.earlyFault, Option.orElse_eq_orElse, Option.orElse_eq_or, Option.or_eq_none_iff] at h
  obtain ⟨-, h1, h2, -⟩ := h
  exact ⟨h1, h2⟩

theorem State.detail_of_firstFault (hm : p.opcodeMap.Valid) (h : s.firstFault p = some c) :
    c.detail = s.faultDetail c.kind := by
  rcases eq_some_of_orElse h with hearly | ⟨hnone, hadvance⟩
  · exact State.detail_of_earlyFault hm hearly
  · obtain ⟨hfetch1, hfetch2⟩ := State.rangeChecks_of_earlyFault_none hnone
    rw [State.advanceCheck_eq_some hadvance, State.faultDetail, State.faultAddress_of_fetched hfetch1 hfetch2]

end

/-- Settles O14: a step's fault is the first its checks find, which has the detail of its kind, and the spec can produce
it; a state with a fault is over. -/
theorem faultRecordIsSetOnce : Obligations.FaultRecordIsSetOnce := by
  refine ⟨fun s t r hs h hr => ⟨?_, ?_⟩, fun s r as hr hrst => actAll_of_over (.inr ⟨r, hr⟩) hrst⟩
  · obtain ⟨u, hu, hst⟩ := stepStatusIsTheFirstFault Config.params s opcodeMap_valid hs
    rw [← step_eq_stepFor] at hu
    cases h.symm.trans hu
    rw [hr] at hst
    split at hst
    next c hc =>
      cases hst
      rw [State.detail_of_firstFault opcodeMap_valid hc]
    next => split at hst <;> cases hst
  · obtain ⟨-, -, hposs⟩ := step_fault_possible hs h hr
    exact hposs

end Sys2Proof.Machine
end

section
/-! PROOFS. The reset, the run under a budget, and the branch after a comparison (70 R230 to R235, 44 R184, R185,
92 D4, D5, D22). -/

namespace Sys2Proof.Machine

/-! A branch after a comparison -/

theorem aluCompare_e (a b : Byte) : (aluCompare a b).e = decide (a = b) := by
  simp only [aluCompare, BitVec.toNat_inj]

/-- Where neither way passes the top, a branch only chooses the pc. -/
theorem State.finish_branch (taken : Bool) (r : RegIndex) {s : State} (h : s.pc.toNat ≤ 253) :
    s.finish 1 (handleBranch taken r s) = s.withPc (if taken then s.x[r] else s.pc + 2) := by
  cases taken with
  | false => exact s.finish_branch_inRange r h
  | true => exact s.finish_branch_taken r

/-- Settles O43: CMP leaves E set exactly on equal registers at pc + 3, and each branch chooses its pc by E. -/
theorem compareThenBranch : Obligations.CompareThenBranch := by
  intro a b r s hpc
  have hcmp : exec (.cmp (regByte a) (regByte b)) s =
      .next ((s.setFlags (aluCompare s.x[a] s.x[b])).withPc (s.pc + 3)) :=
    (exec_cmp_regByte a b s).trans (congrArg _ ((s.setFlags _).advance_eq_add (show s.pc.toNat + 3 ≤ 255 by omega)))
  have hpc' : (s.pc + 3).toNat ≤ 253 := by bv_omega
  have hnext : s.pc + 3 + 2 = s.pc + 5 := BitVec.add_assoc s.pc 3 2
  refine ⟨_, _, _, hcmp, (exec_jeq_regByte r _).trans (congrArg _ (State.finish_branch _ r hpc')),
    (exec_jne_regByte r _).trans (congrArg _ (State.finish_branch _ r hpc')), ?_, ?_, rfl, rfl⟩
  · rw [← hnext]
    simp [State.withPc, aluCompare_e]
  · rw [← hnext]
    simp [State.withPc, aluCompare_e]

/-! The step budget -/

/-- Steps add up: a run that answers a state goes on from it. -/
theorem run_add {M : Host.Core} {s t : M.State} {k : Nat} (h : M.run k s = .next t) (n : Nat) :
    M.run (k + n) s = M.run n t := by
  induction k generalizing s with
  | zero => cases h; rw [Nat.zero_add]
  | succ k ih =>
    rw [Host.Core.run] at h
    split at h
    next u hstep =>
      rw [Nat.succ_add, run_succ_of_step hstep]
      exact ih h
    all_goals cases h

/-- A step of a RUNNING core leaves it RUNNING or over: nothing goes back to LOAD. -/
theorem step_running_or_over {s t : State} (hs : s.status = .running) (h : step s = .next t) :
    t.status = .running ∨ t.Over := by
  rcases step_cases h with ⟨hne, -⟩ | ⟨-, hstop | ⟨i, -, hexec⟩⟩
  · exact absurd hs hne
  · obtain ⟨bs, k, d, rfl, -⟩ := State.fetch_eq_stop hstop
    exact .inr (.inr ⟨_, rfl⟩)
  · rcases exec_status hexec with hsame | ⟨-, hhalt⟩ | ⟨k, d, hfault, -⟩
    · exact .inl (hsame.trans hs)
    · exact .inr (.inl hhalt)
    · exact .inr (.inr ⟨_, hfault⟩)

/-- By induction on the budget; once over, `overIsFinal` carries the state through what is left of it. -/
theorem runFuel_running_or_over (fuel : Nat) {s : State} (hs : s.status = .running) :
    ∃ t, runFuel fuel s = .next t ∧ (t.status = .running ∨ t.Over) := by
  induction fuel generalizing s with
  | zero => exact ⟨s, rfl, .inl hs⟩
  | succ fuel ih =>
    obtain ⟨u, hstep⟩ := everyStepAnswersAState s
    have hrun : runFuel (fuel + 1) s = runFuel fuel u := run_succ_of_step (M := core) hstep fuel
    rw [hrun]
    rcases step_running_or_over hs hstep with hu | hu
    · exact ih hu
    · exact ⟨u, (overIsFinal u hu).1 fuel, .inr hu⟩

/-- Settles O50: each step of the budget leaves the core RUNNING or over, runs add up, and an over state stays. -/
theorem budgetCutsTheRunOff : Obligations.BudgetCutsTheRunOff :=
  ⟨fun fuel _ hs => runFuel_running_or_over fuel hs, fun _ more _ _ h => run_add (M := core) h more,
    fun _ more _ t h hover => (run_add (M := core) h more).trans ((overIsFinal t hover).1 more)⟩

/-! Boot -/

/-- At pc 0 the fetch unit has before it the image that memory holds from address 0 up. -/
theorem State.image_prefix_bytesFrom {s : State} {image : List Byte} (hpc : s.pc = 0) (hlen : image.length ≤ 256)
    (hmem : ∀ a, Memory.read s.mem a = image[a]?.getD 0x00) : image <+: s.bytesFrom := by
  rw [List.prefix_iff_getElem?]
  intro k hk
  have hzero : s.pc.toNat = 0 := congrArg BitVec.toNat hpc
  rw [s.getElem?_bytesFrom, State.byteAfter_of_le (by omega), hmem, hzero, Nat.zero_add, List.getElem?_eq_getElem hk]
  rfl

/-- Bytes decoded at the front of a list are decoded the same whatever follows. -/
theorem decode_of_prefix {bytes more rest : List Byte} {i : Instr} (h : decode bytes = .ok i rest)
    (hpre : bytes <+: more) : ∃ rest', decode more = .ok i rest' := by
  obtain ⟨tail, rfl⟩ := hpre
  refine ⟨rest ++ tail, decode_eq_ok.2 ?_⟩
  rw [decode_eq_ok.1 h, List.append_assoc]

/-- A core RUNNING at pc 0 with an image in memory runs the image's first instruction. -/
theorem step_of_image {s : State} {image rest : List Byte} {i : Instr} (hs : s.status = .running) (hpc : s.pc = 0)
    (hlen : image.length ≤ 256) (hmem : ∀ a, Memory.read s.mem a = image[a]?.getD 0x00)
    (hdec : decode image = .ok i rest) :
    step s = exec i (s.latch i.operandBytes) ∧ s.opcodeAt = Config.opcodeMap i.mnemonic := by
  obtain ⟨rest', hdec'⟩ := decode_of_prefix hdec (State.image_prefix_bytesFrom hpc hlen hmem)
  exact ⟨stepWith_of_decodeWith opcodeMap_valid hs hdec', State.opcodeAt_of_bytesFrom (decode_eq_ok.1 hdec')⟩

/-- The core that `rst`, the load of an image and `start` leave (70 R230 to R232). -/
def State.booted (s : State) (image : List Byte) : State :=
  { s.rst with mem := Memory.writeBytes [] 0 image, status := .running }

theorem State.loadImage_rst (s : State) {image : List Byte} (hlen : image.length ≤ 256) :
    ∃ t, s.rst.loadImage image = some t ∧ t.start = s.booted image :=
  ⟨_, State.loadImage_of_load rfl hlen, if_pos rfl⟩

/-- Settles O56: the load leaves the image in the reset memory, start changes the status alone, and the fetch of the
image's first instruction the latches alone. -/
theorem bootRunsTheFirstInstruction : Obligations.BootRunsTheFirstInstruction := by
  intro s image rest i hlen hdec
  obtain ⟨t, hload, hstart⟩ := s.loadImage_rst hlen
  have hmem : ∀ a, Memory.read (s.booted image).mem a = image[a]?.getD 0x00 := Memory.read_writeBytes_zero [] hlen
  obtain ⟨hstep, hop⟩ := step_of_image (s := s.booted image) rfl rfl hlen hmem hdec
  exact ⟨t, (s.booted image).latch i.operandBytes, hload, hstart ▸ hstep, rfl, rfl, congrArg some hop, rfl, rfl, rfl,
    hmem⟩

end Sys2Proof.Machine
end
